-- ==== Sys2Proof/Word.lean ====
section
/-! DEFINITION. The word types of the Synacor VM core (spec 00_scope.md R10, R11): which quantities are bits and how
wide they are, and the three classes an operand word falls into. -/

namespace Sys2Proof

/-- `V15`: the content of a register, a stack entry, an ALU operand (R6 `VALUE_BITS`, R38). -/
abbrev V15 := BitVec 15

/-- `W16`: the content of a memory cell, an instruction word, the program counter (R6 `WORD_BITS`, R26). -/
abbrev W16 := BitVec 16

/-- `A15`: an address a program can form (R10, R77). -/
abbrev A15 := BitVec 15

/-- `R3`: a register index, 0 to 7 (R10, R21). -/
abbrev R3 := Fin 8

/-- A character code on the input ports, and the fault information word `finfo` (R6 `IN_CHAR_BITS`, R32): 21 bits. -/
abbrev Code := BitVec 21

/-- A byte of the image on the `load` port (R272). -/
abbrev Byte := BitVec 8

/-- An operand word by its class (R11, R91): a literal, a register reference, or an invalid word kept as it is so that the
fault can report it. `bad w` stands for a word only when `w ≥ 32776` (`Operand.encodable`). -/
inductive Operand where
  /-- `isLit`: the literal value `w[14:0]`. -/
  | lit (v : V15)
  /-- `isReg`: the register `x[i]`. -/
  | reg (i : R3)
  /-- `isBad`: a word that raises `InvalidNumber(w)` when it is used. -/
  | bad (w : W16)
deriving DecidableEq, Repr

end Sys2Proof
end

