-- ==== Sys2Proof/Syntax.lean ====
section
/-! DEFINITION. The instruction set: one constructor per row of spec/opcode_table.json (30_encoding.md R94), its operands
the operand words `a`, `b`, `c` by their class (R13, R91). -/

namespace Sys2Proof

/-- The 22 instructions of R94, in the table's order. The row `in` is the constructor `input`: `in` is a Lean keyword. -/
inductive Instr where
  | halt
  | set (a b : Operand)
  | push (a : Operand)
  | pop (a : Operand)
  | eq (a b c : Operand)
  | gt (a b c : Operand)
  | jmp (a : Operand)
  | jt (a b : Operand)
  | jf (a b : Operand)
  | add (a b c : Operand)
  | mult (a b c : Operand)
  | mod (a b c : Operand)
  | and (a b c : Operand)
  | or (a b c : Operand)
  | not (a b : Operand)
  | rmem (a b : Operand)
  | wmem (a b : Operand)
  | call (a : Operand)
  | ret
  | out (a : Operand)
  | input (a : Operand)
  | noop
deriving DecidableEq, Repr

/-- The operand words of an instruction, in the order `a`, `b`, `c` (R13). -/
def Instr.operands : Instr → List Operand
  | .halt => []
  | .set a b => [a, b]
  | .push a => [a]
  | .pop a => [a]
  | .eq a b c => [a, b, c]
  | .gt a b c => [a, b, c]
  | .jmp a => [a]
  | .jt a b => [a, b]
  | .jf a b => [a, b]
  | .add a b c => [a, b, c]
  | .mult a b c => [a, b, c]
  | .mod a b c => [a, b, c]
  | .and a b c => [a, b, c]
  | .or a b c => [a, b, c]
  | .not a b => [a, b]
  | .rmem a b => [a, b]
  | .wmem a b => [a, b]
  | .call a => [a]
  | .ret => []
  | .out a => [a]
  | .input a => [a]
  | .noop => []

/-- The instructions whose operand `a` is a write target (`W`, R95). -/
def Instr.hasTarget : Instr → Bool
  | .halt => false
  | .set _ _ => true
  | .push _ => false
  | .pop _ => true
  | .eq _ _ _ => true
  | .gt _ _ _ => true
  | .jmp _ => false
  | .jt _ _ => false
  | .jf _ _ => false
  | .add _ _ _ => true
  | .mult _ _ _ => true
  | .mod _ _ _ => true
  | .and _ _ _ => true
  | .or _ _ _ => true
  | .not _ _ => true
  | .rmem _ _ => true
  | .wmem _ _ => false
  | .call _ => false
  | .ret => false
  | .out _ => false
  | .input _ => true
  | .noop => false

end Sys2Proof
end

