-- ==== Sys2Proof/WellFormed.lean ====
section
/-! DEFINITION. Which instructions have an encoding (`Instr.encodable`) and which have only legal operands
(`Instr.wellFormed`, 30_encoding.md R95, R101). An encodable instruction with an illegal operand still decodes and runs:
phase D raises the fault (R96, R97). -/

namespace Sys2Proof

/-- Some operand word stands for this operand: an invalid word is one above 32775 (R11). -/
def Operand.encodable : Operand → Bool
  | .lit _ => true
  | .reg _ => true
  | .bad w => decide (32776 ≤ w.toNat)

/-- Legal in a value (`V`) position: a literal or a register reference (R101). -/
def Operand.legalValue : Operand → Bool
  | .lit _ => true
  | .reg _ => true
  | .bad _ => false

/-- Legal in a write-target (`W`) position: a register reference (R101). -/
def Operand.legalTarget : Operand → Bool
  | .lit _ => false
  | .reg _ => true
  | .bad _ => false

/-- Every operand is one that some word stands for. -/
def Instr.encodable (i : Instr) : Bool :=
  i.operands.all Operand.encodable

/-- Every operand is legal for its kind in the table of R95. -/
def Instr.wellFormed : Instr → Bool
  | .halt => true
  | .set a b => a.legalTarget && b.legalValue
  | .push a => a.legalValue
  | .pop a => a.legalTarget
  | .eq a b c => a.legalTarget && b.legalValue && c.legalValue
  | .gt a b c => a.legalTarget && b.legalValue && c.legalValue
  | .jmp a => a.legalValue
  | .jt a b => a.legalValue && b.legalValue
  | .jf a b => a.legalValue && b.legalValue
  | .add a b c => a.legalTarget && b.legalValue && c.legalValue
  | .mult a b c => a.legalTarget && b.legalValue && c.legalValue
  | .mod a b c => a.legalTarget && b.legalValue && c.legalValue
  | .and a b c => a.legalTarget && b.legalValue && c.legalValue
  | .or a b c => a.legalTarget && b.legalValue && c.legalValue
  | .not a b => a.legalTarget && b.legalValue
  | .rmem a b => a.legalTarget && b.legalValue
  | .wmem a b => a.legalValue && b.legalValue
  | .call a => a.legalValue
  | .ret => true
  | .out a => a.legalValue
  | .input a => a.legalTarget
  | .noop => true

end Sys2Proof
end

