-- ==== Sys2Proof/Decode.lean ====
section
/-! DEFINITION. The opcode table (30_encoding.md R94), operand classification (R11, R91), the decoder (total on any list of
words or bytes, rejecting by name), and the encoder written from the same table; byte order of the image (R65); the
assembler notation (R109). -/

namespace Sys2Proof

/-! ## Operand words -/

/-- `isLit(w)` (R11). -/
def isLit (w : W16) : Bool := decide (w.toNat ≤ 32767)

/-- `isReg(w)` (R11). -/
def isReg (w : W16) : Bool := decide (32768 ≤ w.toNat ∧ w.toNat ≤ 32775)

/-- `isBad(w)` (R11). -/
def isBad (w : W16) : Bool := decide (32776 ≤ w.toNat)

/-- The class of an operand word (R91): `w[14:0]` of a literal, `w − 32768` of a register reference. -/
def Operand.ofWord (w : W16) : Operand :=
  if w.toNat ≤ 32767 then .lit (w.setWidth 15)
  else if h : w.toNat ≤ 32775 then .reg ⟨w.toNat - 32768, by omega⟩
  else .bad w

/-- The operand word that stands for an operand (R91). -/
def Operand.word : Operand → W16
  | .lit v => v.setWidth 16
  | .reg i => BitVec.ofNat 16 (32768 + i.val)
  | .bad w => w

/-! ## The opcode table -/

/-- How an instruction is made from its operand words, one form per format `OP0` to `OP3` (R92). -/
inductive Format where
  | op0 (i : Instr)
  | op1 (mk : Operand → Instr)
  | op2 (mk : Operand → Operand → Instr)
  | op3 (mk : Operand → Operand → Operand → Instr)

/-- A row of the opcode table (R94). -/
structure OpcodeRow where
  opcode : Nat
  format : Format

/-- The opcode table, row for row (R94). -/
def opcodeTable : List OpcodeRow :=
  [⟨0, .op0 .halt⟩, ⟨1, .op2 .set⟩, ⟨2, .op1 .push⟩, ⟨3, .op1 .pop⟩, ⟨4, .op3 .eq⟩, ⟨5, .op3 .gt⟩] ++
  [⟨6, .op1 .jmp⟩, ⟨7, .op2 .jt⟩, ⟨8, .op2 .jf⟩] ++
  [⟨9, .op3 .add⟩, ⟨10, .op3 .mult⟩, ⟨11, .op3 .mod⟩, ⟨12, .op3 .and⟩, ⟨13, .op3 .or⟩, ⟨14, .op2 .not⟩] ++
  [⟨15, .op2 .rmem⟩, ⟨16, .op2 .wmem⟩, ⟨17, .op1 .call⟩, ⟨18, .op0 .ret⟩] ++
  [⟨19, .op1 .out⟩, ⟨20, .op1 .input⟩, ⟨21, .op0 .noop⟩]

/-- The row of an opcode word: all 16 bits are compared (R100). -/
def opcodeRow (op : W16) : Option OpcodeRow :=
  opcodeTable.find? (fun r => r.opcode == op.toNat)

/-- The operand count `n` of a format (R92). -/
def Format.arity : Format → Nat
  | .op0 _ => 0
  | .op1 _ => 1
  | .op2 _ => 2
  | .op3 _ => 3

/-- The operand count of an opcode word, if the table has it (R94, R103). -/
def opcodeArity (op : W16) : Option Nat :=
  (opcodeRow op).map (fun r => r.format.arity)

/-! ## The decoder -/

/-- Why a list of words is no instruction. -/
inductive DecodeError where
  /-- The opcode word is not in the table (R100). -/
  | unknownOpcode (op : W16)
  /-- The list ends before the opcode word or before the last operand word. -/
  | truncated
  /-- The byte list ends inside a word (R274 (a)). -/
  | oddByte
deriving DecidableEq, Repr

/-- The instruction a format makes of the operand words that follow, and the words after it. -/
def Format.decode : Format → List W16 → Except DecodeError (Instr × List W16)
  | .op0 i, ws => .ok (i, ws)
  | .op1 mk, a :: ws => .ok (mk (.ofWord a), ws)
  | .op2 mk, a :: b :: ws => .ok (mk (.ofWord a) (.ofWord b), ws)
  | .op3 mk, a :: b :: c :: ws => .ok (mk (.ofWord a) (.ofWord b) (.ofWord c), ws)
  | .op1 _, [] => .error .truncated
  | .op2 _, [] => .error .truncated
  | .op2 _, [_] => .error .truncated
  | .op3 _, [] => .error .truncated
  | .op3 _, [_] => .error .truncated
  | .op3 _, [_, _] => .error .truncated

/-- Decode the instruction at the head of a list of words (R90, R94): the opcode word is looked up, then the declared
number of operand words is taken. Operand words are classified, never rejected here: phase D does that (R98). -/
def decode : List W16 → Except DecodeError (Instr × List W16)
  | [] => .error .truncated
  | op :: ws =>
    match opcodeRow op with
    | none => .error (.unknownOpcode op)
    | some r => r.format.decode ws

/-- Words of a byte sequence, little-endian (R65, R272); `none` when a byte is left over. -/
def wordsOfBytes : List Byte → Option (List W16)
  | [] => some []
  | [_] => none
  | lo :: hi :: bs => (wordsOfBytes bs).map (BitVec.ofNat 16 (lo.toNat + 256 * hi.toNat) :: ·)

/-- Decode from the bytes of an image. -/
def decodeBytes (bs : List Byte) : Except DecodeError (Instr × List W16) :=
  match wordsOfBytes bs with
  | none => .error .oddByte
  | some ws => decode ws

/-! ## The encoder -/

/-- The words of an instruction (R92, R94). -/
def encode : Instr → List W16
  | .halt => [0]
  | .set a b => [1, a.word, b.word]
  | .push a => [2, a.word]
  | .pop a => [3, a.word]
  | .eq a b c => [4, a.word, b.word, c.word]
  | .gt a b c => [5, a.word, b.word, c.word]
  | .jmp a => [6, a.word]
  | .jt a b => [7, a.word, b.word]
  | .jf a b => [8, a.word, b.word]
  | .add a b c => [9, a.word, b.word, c.word]
  | .mult a b c => [10, a.word, b.word, c.word]
  | .mod a b c => [11, a.word, b.word, c.word]
  | .and a b c => [12, a.word, b.word, c.word]
  | .or a b c => [13, a.word, b.word, c.word]
  | .not a b => [14, a.word, b.word]
  | .rmem a b => [15, a.word, b.word]
  | .wmem a b => [16, a.word, b.word]
  | .call a => [17, a.word]
  | .ret => [18]
  | .out a => [19, a.word]
  | .input a => [20, a.word]
  | .noop => [21]

/-- Bytes of a word sequence, low byte first (R65). -/
def bytesOfWords : List W16 → List Byte
  | [] => []
  | w :: ws => BitVec.ofNat 8 (w.toNat % 256) :: BitVec.ofNat 8 (w.toNat / 256) :: bytesOfWords ws

/-! ## The spec's assembler notation (R109) -/

/-- The mnemonic of an instruction, as R94 writes it. -/
def Instr.mnemonic : Instr → String
  | .halt => "halt"
  | .set _ _ => "set"
  | .push _ => "push"
  | .pop _ => "pop"
  | .eq _ _ _ => "eq"
  | .gt _ _ _ => "gt"
  | .jmp _ => "jmp"
  | .jt _ _ => "jt"
  | .jf _ _ => "jf"
  | .add _ _ _ => "add"
  | .mult _ _ _ => "mult"
  | .mod _ _ _ => "mod"
  | .and _ _ _ => "and"
  | .or _ _ _ => "or"
  | .not _ _ => "not"
  | .rmem _ _ => "rmem"
  | .wmem _ _ => "wmem"
  | .call _ => "call"
  | .ret => "ret"
  | .out _ => "out"
  | .input _ => "in"
  | .noop => "noop"

/-- An operand as text: a decimal literal or `r0` to `r7`; an invalid word has none. -/
def Operand.text : Operand → Option String
  | .lit v => some (toString v.toNat)
  | .reg i => some ("r" ++ toString i.val)
  | .bad _ => none

/-- The operands' texts, each after a space. -/
def operandsText : List Operand → Option String
  | [] => some ""
  | o :: os =>
    match o.text, operandsText os with
    | some t, some ts => some (" " ++ t ++ ts)
    | none, _ => none
    | some _, none => none

/-- An instruction's line: the mnemonic and its operands in the order `a b c`. -/
def Instr.text (i : Instr) : Option String :=
  (operandsText i.operands).map (i.mnemonic ++ ·)

/-- The line of a raw data word. -/
def wordText (w : W16) : String :=
  ".word " ++ toString w.toNat

/-- A line with the address of its opcode word before it. -/
def lineAt (addr : Nat) (line : String) : String :=
  toString addr ++ ": " ++ line

/-! ## Words as the opcode table numbers them -/

/-- The four words (the longest instruction) of a number whose bit 0 is the least significant bit of the first word; bits
from `nbits` up are 0. -/
def tableWords (nbits w : Nat) : List W16 :=
  let v := w % 2 ^ nbits
  [BitVec.ofNat 16 v, BitVec.ofNat 16 (v / 2 ^ 16), BitVec.ofNat 16 (v / 2 ^ 32), BitVec.ofNat 16 (v / 2 ^ 48)]

/-- The instruction the decoder reads from those words. -/
def decodeTableWord (nbits w : Nat) : Option Instr :=
  match decode (tableWords nbits w) with
  | .ok (i, _) => some i
  | .error _ => none

end Sys2Proof
end

