-- ==== Sys2Proof/Config.lean ====
section
/-! DEFINITION. The fixed parameters of the hardware (spec 00_scope.md R6), the record of its OPEN parameters, and the free
values: what the spec leaves without a value is an opaque constant here, so that nothing can be proved of it. -/

namespace Sys2Proof

/-- `HACK_PATCH` (R254): three (address, word) pairs and one (register, value) pair. -/
structure HackPatch where
  addr1 : A15
  word1 : W16
  addr2 : A15
  word2 : W16
  addr3 : A15
  word3 : W16
  reg : R3
  value : V15
deriving DecidableEq, Repr, Inhabited

/-- The OPEN parameters (R6, decisions D8, D20, D22), fixed by the host before `start` (R279). They are parameters of the
step relation, not state (R7); the state carries them so that every claim holds for all of them (log entry 6). -/
structure Params where
  /-- `STACK_CAP`: `none` is unbounded, the spec's default (D8). -/
  stackCap : Option Nat
  /-- `SENTINEL`: a byte value; `none` disables the console (D20). -/
  sentinel : Option Byte
  /-- `HACK_PATCH`, where a claim names it; `none` leaves it open: `Config.hackPatch` (log entry 7). -/
  hackPatch : Option HackPatch
deriving DecidableEq, Repr

namespace Config

/-- `MEM_WORDS` (R6, R60). -/
def memWords : Nat := 32768

/-- `VALUE_MAX` (R6). -/
def valueMax : Nat := 32767

/-- `MODULUS` (R6, R166). -/
def modulus : Nat := 32768

/-- The longest image in bytes (R274 (c), decision D6). -/
def maxImageBytes : Nat := 65536

/-- `LINE_BREAK` (R6, decision D24, K4: general knowledge; log entry 17). -/
def lineBreak : Code := 10

/-- The command word `dump` as character codes (R250; K6, log entry 17). -/
def wordDump : List Code := [100, 117, 109, 112]

/-- The command word `debug` (R250; K6, log entry 17). -/
def wordDebug : List Code := [100, 101, 98, 117, 103]

/-- The command word `nodebug` (R250; K6, log entry 17). -/
def wordNodebug : List Code := [110, 111, 100, 101, 98, 117, 103]

/-- The command word `hack` (R250; K6, log entry 17). -/
def wordHack : List Code := [104, 97, 99, 107]

/-- The parameters of the spec's examples (92_eei_decisions.md, "OPEN parameters, collected"). -/
def defaultParams : Params := { stackCap := none, sentinel := none, hackPatch := none }

/-- FREE VALUE (log entry 7): the patch where no claim names it. DESIGN CHOICE, safe: nothing is known of it. -/
opaque hackPatch : HackPatch

/-- FREE VALUE (log entry 8): the content of a trace record, as a number that stands for it; applied to the counter
`State.free`, a fresh one for every record. DESIGN CHOICE, safe. -/
opaque traceContent : Nat → Nat

/-- FREE VALUE (log entry 10): what memory holds after a load error, as cells to write into an empty memory; applied to
the counter `State.free`. DESIGN CHOICE, safe. -/
opaque loadErrorCells : Nat → List (A15 × W16)

/-- FREE VALUE (log entry 11): `finfo` after a load error whose byte count does not fit 21 bits. DESIGN CHOICE, safe. -/
opaque loadErrorInfo : Nat → Code

end Config

end Sys2Proof
end

