-- ==== Sys2Proof/Machine/State.lean ====
section
/-! DEFINITION. The state of the machine (10_state.md R20 and what the spec implies beside it), the causes and traps, the
two stop types of the interface, and the state after reset (R42). -/

namespace Sys2Proof.Machine

/-- Main memory (R39, R60): (address, word) pairs, addresses strictly rising and below 32768; an address that is not listed
is *unwritten* and has no value (R62). The unit of addressing is the 16-bit cell: there are no byte addresses (R60; log
entry 16). -/
abbrev Memory := List (Nat × W16)

/-- `run` (R30). -/
inductive RunState where
  | running
  | halted
deriving DecidableEq, Repr

/-- `cause` (R31): why the core is HALTED. The codes are `Cause.code`; 5, 6, 7 are unused. -/
inductive Cause where
  | none
  | haltInstr
  | retEmpty
  | inputEof
  | operatorStop
  | unknownOpcode
  | invalidNumber
  | stackUnderflow
  | badWriteTarget
  | divideByZero
  | unmappedAccess
  | stackOverflow
  | loadError
deriving DecidableEq, Repr

/-- The faults of the HARDWARE (R232), each with what it reports. Taking one is a NEXT state (`State.raise`, R236). -/
inductive Trap where
  | unknownOpcode (op : W16)
  | invalidNumber (v : Code)
  | stackUnderflow
  | badWriteTarget (w : W16)
  | divideByZero (b : V15)
  | unmappedAccess (addr : Nat)
  | stackOverflow (v : V15)
  | loadError (info : Code)
deriving DecidableEq, Repr

/-- A record of the diagnostic channel (R255). Its layout is opaque (R252, D23). -/
inductive DiagRecord where
  /-- The step trace's record; its content is a free value (log entry 8). -/
  | trace (content : Nat)
  /-- `dump`'s record: the eight registers and the stack, top first (R252; log entry 9). -/
  | dump (regs : Vector V15 8) (stack : List V15)
deriving DecidableEq, Repr

/-- An event of the live source (R209). -/
inductive LiveEvent where
  | char (c : Code)
  | eof
deriving DecidableEq, Repr

/-- How the host ends the image's byte stream (R272, R274 (b)). -/
inductive StreamEnd where
  | endOfStream
  | abort
deriving DecidableEq, Repr

/-- The host's moves (R258) that reach the hardware through a port (R44). -/
inductive HostMove where
  /-- `rst`. -/
  | rst
  /-- `load`: the bytes of the image and how the stream ended. -/
  | load (image : List Byte) (ending : StreamEnd)
  /-- `script_in`: the scripted lines, each with its line break. -/
  | script (lines : List (List Code))
  /-- `start`. -/
  | start
  /-- `live_in`: one more event at the end of the live source. -/
  | offer (e : LiveEvent)
  /-- `stop_req`. -/
  | stopReq
deriving DecidableEq, Repr

/-- Where the launch sequence of R271 stands (R270, R277; log entry 1). -/
inductive Launch where
  | atReset
  | loaded
  | started
deriving DecidableEq, Repr

/-- An `in` that holds (R212): the step has begun (`pc` advanced, target chosen) and waits for a live event. -/
structure PendingIn where
  /-- The address of the `in`'s opcode word. -/
  ipc : W16
  /-- The register the character goes to. -/
  target : R3
  /-- `none`: `LiveRead` waits; `some l`: the console waits, with `l` of its command line read so far (R250). -/
  line : Option (List Code)
deriving DecidableEq, Repr

/-- The state: R20's list, the in-flight `in` (R212), the launch position (R270), and the environment's part: the live
source (R209), the host's moves not yet served (R258), the OPEN parameters (R6) and the counter of free values. -/
structure State where
  /-- `x[0..7]` (R21). -/
  regs : Vector V15 8
  /-- `pc` (R25, R26). -/
  pc : W16
  /-- `stack`, top first (R27). -/
  stack : List V15
  /-- `mem` (R39). -/
  mem : Memory
  /-- `run` (R30). -/
  run : RunState
  /-- `cause` (R31). -/
  cause : Cause
  /-- `fpc` (R32). -/
  fpc : W16
  /-- `finfo` (R32). -/
  finfo : Code
  /-- `trace` (R33). -/
  trace : Bool
  /-- `cur` (R34). -/
  cur : List Code
  /-- `script` (R34). -/
  script : List (List Code)
  /-- `OUT`, oldest first (R35). -/
  out : List V15
  /-- `DIAG`, oldest first (R35). -/
  diag : List DiagRecord
  /-- The launch position (R270, R277). -/
  launch : Launch
  /-- The `in` that holds, if one does (R212). -/
  hold : Option PendingIn
  /-- `LIVE`: the events the host has supplied and no `in` has taken, oldest first (R209). -/
  live : List LiveEvent
  /-- The host's moves that have not landed yet, oldest first (R258; log entry 4). -/
  requests : List HostMove
  /-- The OPEN parameters (R6; log entry 6). -/
  params : Params
  /-- The model's own: which free value comes next (log entry 8). -/
  free : Nat
deriving DecidableEq, Repr

/-- Why `step` has no next state although the model is whole: the spec gives the core NO STEP there (R8, R212, R270). These
are stuck states, not faults of the hardware (those are `Trap`, taken as next states). All are safe: nothing is claimed of
a step the spec does not give. -/
inductive Fault where
  /-- Raised by `coreStep` when `run = HALTED`: "A state whose run state is HALTED has no core step" (R8). Safe. -/
  | halted
  /-- Raised by `coreStep` before `start`: the core "takes no step" (R270). Safe. -/
  | notStarted
  /-- Raised by `coreStep` while an `in` holds and the live source offers nothing: `hold` (R212), lifted by a host move.
  Safe. -/
  | holding
deriving DecidableEq, Repr

/-- Why `step` gives no meaning. -/
inductive Refusal where
  /-- Raised by an arm of `exec` for an instruction without a meaning; no arm does. Safe. -/
  | notModelled (mnemonic : String)
  /-- Raised by `serveHost` for a move "the host may not do" (R258): a load or a script at the wrong time, a start with
  nothing loaded (log entry 5). Safe. -/
  | hostProtocol
deriving DecidableEq, Repr

/-- The machine right after reset (R42, R270): nothing loaded, nothing started. `fpc` and `finfo` have no value in the spec:
0 is a DESIGN CHOICE (log entry 13). -/
def State.reset : State where
  regs := Vector.replicate 8 0
  pc := 0
  stack := []
  mem := []
  run := .running
  cause := .none
  fpc := 0
  finfo := 0
  trace := false
  cur := []
  script := []
  out := []
  diag := []
  launch := .atReset
  hold := none
  live := []
  requests := []
  params := Config.defaultParams
  free := 0

end Sys2Proof.Machine
end

