-- ==== Sys2Proof/Machine/Ops.lean ====
section
/-! DEFINITION. The named operations over memory, registers, stack and output; taking a fault and stopping; the frame every
instruction runs in (30_encoding.md R98, phases F3 and T). -/

namespace Sys2Proof.Machine

/-! ## Memory (20_memory.md) -/

/-- The word in the cell at `addr`, `none` when the cell is unwritten (R62). -/
def Memory.read : Memory → Nat → Option W16
  | [], _ => none
  | (a, w) :: m, addr => if a = addr then some w else Memory.read m addr

/-- The canonical form is kept: the entry of `addr` is replaced, or put in its place. -/
def Memory.insert : Memory → Nat → W16 → Memory
  | [], addr, w => [(addr, w)]
  | (a, v) :: m, addr, w =>
    if addr < a then (addr, w) :: (a, v) :: m
    else if addr = a then (addr, w) :: m
    else (a, v) :: Memory.insert m addr w

/-- A write of one cell; it always succeeds (R64). -/
def Memory.write (m : Memory) (addr : A15) (w : W16) : Memory :=
  m.insert addr.toNat w

/-- Every entry from address `lo` up is in the 32768 cells and above the one before it. -/
def Memory.wfFrom : Nat → Memory → Bool
  | _, [] => true
  | lo, (a, _) :: m => decide (lo ≤ a ∧ a < Config.memWords) && Memory.wfFrom (a + 1) m

/-- The canonical form: addresses strictly rising and below 32768. No entry can equal what an unlisted address reads as,
since that is no value (R62). -/
def Memory.wf (m : Memory) : Bool :=
  Memory.wfFrom 0 m

/-- The cells written one after the other (R273, R254). -/
def Memory.writeCells (m : Memory) : List (A15 × W16) → Memory
  | [] => m
  | (a, w) :: cs => Memory.writeCells (m.write a w) cs

/-- The words at `addr`, `addr + 1`, … written one after the other (R273); an address above 32767 is no cell (R60). -/
def Memory.writeWords (m : Memory) (addr : Nat) : List W16 → Memory
  | [] => m
  | w :: ws =>
    Memory.writeWords (if addr < Config.memWords then m.insert addr w else m) (addr + 1) ws

/-- `MemRead(addr, 1)` for a natural number `addr` (R63). -/
def State.memRead (s : State) (addr : Nat) : Except Trap W16 :=
  if addr ≤ 32767 then
    match s.mem.read addr with
    | some w => .ok w
    | none => .error (.unmappedAccess addr)
  else .error (.unmappedAccess addr)

/-- `MemWrite(addr, 1, w)` (R64). -/
def State.memWrite (s : State) (addr : A15) (w : W16) : State :=
  { s with mem := s.mem.write addr w }

/-! ## Registers, stack, output (10_state.md) -/

/-- `x[i]` (R21). -/
def State.reg (s : State) (i : R3) : V15 :=
  s.regs[i]

/-- `x[i] <- v` for a `V15` (R21). -/
def State.setReg (s : State) (i : R3) (v : V15) : State :=
  { s with regs := s.regs.set i v }

/-- The test before a store in a register or on the stack: only a `V15` may be stored (R38). -/
def toValue (v : Code) : Except Trap V15 :=
  if v.toNat ≤ Config.valueMax then .ok (v.setWidth 15) else .error (.invalidNumber v)

/-- The stack is at its capacity (R28). -/
def State.stackFull (s : State) : Bool :=
  s.params.stackCap == some s.stack.length

/-- `Push(v)` (R28): the range test, then the capacity test, then the push. -/
def State.push (s : State) (v : Code) : Except Trap State :=
  match toValue v with
  | .error t => .error t
  | .ok x => if s.stackFull then .error (.stackOverflow x) else .ok { s with stack := x :: s.stack }

/-- `Emit(c)` (R203). -/
def State.emit (s : State) (c : V15) : State :=
  { s with out := s.out ++ [c] }

/-- `pc <- t` (R25), for a jump target: a `V15`. -/
def State.jump (s : State) (t : V15) : State :=
  { s with pc := t.setWidth 16 }

/-! ## Stops and faults (60_exceptions.md) -/

/-- The numeric code of a cause (R31). -/
def Cause.code : Cause → Nat
  | .none => 0
  | .haltInstr => 1
  | .retEmpty => 2
  | .inputEof => 3
  | .operatorStop => 4
  | .unknownOpcode => 8
  | .invalidNumber => 9
  | .stackUnderflow => 10
  | .badWriteTarget => 11
  | .divideByZero => 12
  | .unmappedAccess => 13
  | .stackOverflow => 14
  | .loadError => 15

/-- The cause a fault records (R232). -/
def Trap.cause : Trap → Cause
  | .unknownOpcode _ => .unknownOpcode
  | .invalidNumber _ => .invalidNumber
  | .stackUnderflow => .stackUnderflow
  | .badWriteTarget _ => .badWriteTarget
  | .divideByZero _ => .divideByZero
  | .unmappedAccess _ => .unmappedAccess
  | .stackOverflow _ => .stackOverflow
  | .loadError _ => .loadError

/-- The value a fault records in `finfo` (R232). -/
def Trap.info : Trap → Code
  | .unknownOpcode op => op.setWidth 21
  | .invalidNumber v => v
  | .stackUnderflow => 0
  | .badWriteTarget w => w.setWidth 21
  | .divideByZero b => b.setWidth 21
  | .unmappedAccess addr => BitVec.ofNat 21 addr
  | .stackOverflow v => v.setWidth 21
  | .loadError n => n

/-- TAKING A FAULT ("trap entry", R236): `run <- HALTED; cause <- code(F); fpc <- ipc; finfo <- info`. Nothing else is
written and control goes nowhere. -/
def State.raise (t : Trap) (ipc : W16) (s : State) : State :=
  { s with run := .halted, cause := t.cause, fpc := ipc, finfo := t.info }

/-- `stop <Cause>` (R231): `run <- HALTED`, `cause <- code`, nothing else. -/
def State.stop (c : Cause) (s : State) : State :=
  { s with run := .halted, cause := c }

/-- THE ONLY WAY BACK from a stop or a fault (R244, R270): `rst` puts every piece of the hardware's state at its reset
value. What is not the hardware's stays: the live source, the host's moves, the parameters (R7, R209; log entry 18). -/
def State.resetBy (s : State) : State :=
  { State.reset with live := s.live, requests := s.requests, params := s.params, free := s.free }

/-! ## The frame of an instruction (R98) -/

/-- Phase F3: `pc <- ipc + 1 + n`. -/
def State.advance (n : Nat) (s : State) : State :=
  { s with pc := s.pc + BitVec.ofNat 16 (1 + n) }

/-- Phase T: while `trace = 1` a step appends one opaque record to `DIAG` (R33, R255). -/
def State.traceStep (s : State) : State :=
  if s.trace then
    { s with diag := s.diag ++ [.trace (Config.traceContent s.free)], free := s.free + 1 }
  else s

/-- Phases F3 and T. -/
def State.issue (n : Nat) (s : State) : State :=
  (s.advance n).traceStep

/-- How phases D and E end: with the state they give, or with the fault taken on the state they began with (R236: nothing
the faulting instruction would have written is written). -/
def State.settle (ipc : W16) (s : State) : Except Trap State → State
  | .ok t => t
  | .error e => s.raise e ipc

/-- An instruction of `n` operands whose phases D and E are `body`: F3, T, D, E of R98, from the state at the start of the
step. -/
def execute (n : Nat) (body : State → Except Trap State) (s : State) : Host.Outcome State Fault Refusal :=
  .next ((s.issue n).settle s.pc (body (s.issue n)))

end Sys2Proof.Machine
end

