-- ==== Sys2Proof/Machine/Operands.lean ====
section
/-! DEFINITION. Operand resolution, phase D (30_encoding.md R95 to R97): every operand form the spec gives. -/

namespace Sys2Proof.Machine

/-- `val(w)` (R96): a literal is its own value, a register reference the register's content, anything else a fault. -/
def State.val (s : State) : Operand → Except Trap V15
  | .lit v => .ok v
  | .reg i => .ok (s.reg i)
  | .bad w => .error (.invalidNumber (w.setWidth 21))

/-- `tgt(w)` (R97): the register index, kept and not read; a literal cannot be written (decision D11). -/
def target : Operand → Except Trap R3
  | .lit v => .error (.badWriteTarget (v.setWidth 16))
  | .reg i => .ok i
  | .bad w => .error (.invalidNumber (w.setWidth 21))

/-- Phase D of a `V` operand, then `k`. -/
def State.withVal (s : State) (o : Operand) (k : V15 → Except Trap State) : Except Trap State :=
  match s.val o with
  | .ok v => k v
  | .error t => .error t

/-- Phase D of a `W` operand, then `k`. -/
def withTarget (o : Operand) (k : R3 → Except Trap State) : Except Trap State :=
  match target o with
  | .ok i => k i
  | .error t => .error t

end Sys2Proof.Machine
end

