-- ==== Sys2Proof/Machine/Flags.lean ====
section
/-! DEFINITION. The ALU (43_arith_logic.md R166, R167). The hardware has NO FLAGS (10_state.md R36): a comparison writes 1 or
0 into a register, and the ALU's one side output is the error signal `div0`. -/

namespace Sys2Proof.Machine

/-- The ALU's operation codes (R167). -/
inductive AluOp where
  | add
  | mult
  | mod
  | and
  | or
  | not
  | eq
  | gt
deriving DecidableEq, Repr

/-- The error output `div0`: asserted only for `mod` with `c = 0` (R167). -/
def AluOp.div0 (op : AluOp) (c : V15) : Bool :=
  decide (op = .mod ∧ c = 0)

/-- A truth value as a register holds it: exactly 1 or 0 (R140, R141). -/
def truth (p : Bool) : V15 :=
  if p then 1 else 0

/-- The ALU's result (R160 to R165, R140, R141); `c` is unused by `not`, and the result has no meaning when `div0` is
asserted. -/
def AluOp.result (op : AluOp) (b c : V15) : V15 :=
  match op with
  | .add => BitVec.ofNat 15 ((b.toNat + c.toNat) % Config.modulus)
  | .mult => BitVec.ofNat 15 ((b.toNat * c.toNat) % Config.modulus)
  | .mod => BitVec.ofNat 15 (b.toNat % c.toNat)
  | .and => b &&& c
  | .or => b ||| c
  | .not => ~~~b
  | .eq => truth (decide (b = c))
  | .gt => truth (decide (c.toNat < b.toNat))

/-- The ALU writing a register: `DivideByZero(b)` when `div0` is asserted (R162), else the result. -/
def State.aluWrite (s : State) (op : AluOp) (i : R3) (b c : V15) : Except Trap State :=
  if op.div0 c then .error (.divideByZero b) else .ok (s.setReg i (op.result b c))

/-- An ALU instruction with operands `a` (W), `b`, `c` (V), resolved in that order (R98, R160). -/
def executeAlu3 (op : AluOp) (a b c : Operand) (s : State) : Host.Outcome State Fault Refusal :=
  execute 3 (fun s1 =>
    withTarget a fun i => s1.withVal b fun x => s1.withVal c fun y => s1.aluWrite op i x y) s

end Sys2Proof.Machine
end

