-- ==== Sys2Proof/Machine/ArithLogic.lean ====
section
/-! DEFINITION. `add`, `mult`, `mod`, `and`, `or`, `not` (43_arith_logic.md). -/

namespace Sys2Proof.Machine

/-- `add a b c` (R160): `x[a] <- (b + c) mod 32768`. -/
def execAdd (a b c : Operand) (s : State) : Host.Outcome State Fault Refusal :=
  executeAlu3 .add a b c s

/-- `mult a b c` (R161): `x[a] <- (b × c) mod 32768`. -/
def execMult (a b c : Operand) (s : State) : Host.Outcome State Fault Refusal :=
  executeAlu3 .mult a b c s

/-- `mod a b c` (R162): `x[a] <- b mod c`; `DivideByZero(b)` when `c = 0`. -/
def execMod (a b c : Operand) (s : State) : Host.Outcome State Fault Refusal :=
  executeAlu3 .mod a b c s

/-- `and a b c` (R163): `x[a] <- b & c`. -/
def execAnd (a b c : Operand) (s : State) : Host.Outcome State Fault Refusal :=
  executeAlu3 .and a b c s

/-- `or a b c` (R164): `x[a] <- b | c`. -/
def execOr (a b c : Operand) (s : State) : Host.Outcome State Fault Refusal :=
  executeAlu3 .or a b c s

/-- `not a b` (R165): `x[a] <- (~b) & 0x7FFF`. The ALU's second input is unused (R167). -/
def execNot (a b : Operand) (s : State) : Host.Outcome State Fault Refusal :=
  execute 2 (fun s1 => withTarget a fun i => s1.withVal b fun x => s1.aluWrite .not i x 0) s

end Sys2Proof.Machine
end

