-- ==== Sys2Proof/Machine/CallReturn.lean ====
section
/-! DEFINITION. `call`, `ret` (45_call_return.md). -/

namespace Sys2Proof.Machine

/-- Phase E of `call` (R190): `Push(pc); pc <- a`, the pc being the advanced one. -/
def State.callTo (s : State) (t : V15) : Except Trap State :=
  match s.push (s.pc.setWidth 21) with
  | .ok s2 => .ok (s2.jump t)
  | .error e => .error e

/-- `call a` (R190). -/
def execCall (a : Operand) (s : State) : Host.Outcome State Fault Refusal :=
  execute 1 (fun s1 => s1.withVal a fun t => s1.callTo t) s

/-- Phase E of `ret` (R191): `pc <- Pop()`, or the clean stop `RET_EMPTY` on an empty stack. -/
def State.returnOrStop (s : State) : State :=
  match s.stack with
  | [] => s.stop .retEmpty
  | t :: rest => { s with stack := rest }.jump t

/-- `ret` (R191). -/
def execRet (s : State) : Host.Outcome State Fault Refusal :=
  execute 0 (fun s1 => .ok s1.returnOrStop) s

end Sys2Proof.Machine
end

