-- ==== Sys2Proof/Machine/Compare.lean ====
section
/-! DEFINITION. `eq`, `gt` (41_compare.md). -/

namespace Sys2Proof.Machine

/-- `eq a b c` (R140): `x[a] <- (if b = c then 1 else 0)`. -/
def execEq (a b c : Operand) (s : State) : Host.Outcome State Fault Refusal :=
  executeAlu3 .eq a b c s

/-- `gt a b c` (R141): `x[a] <- (if b > c then 1 else 0)`, unsigned. -/
def execGt (a b c : Operand) (s : State) : Host.Outcome State Fault Refusal :=
  executeAlu3 .gt a b c s

end Sys2Proof.Machine
end

