-- ==== Sys2Proof/Machine/HaltMoveStack.lean ====
section
/-! DEFINITION. `halt`, `set`, `push`, `pop` (40_halt_move_stack.md). -/

namespace Sys2Proof.Machine

/-- `halt` (R130): `stop HALT_INSTR`. -/
def execHalt (s : State) : Host.Outcome State Fault Refusal :=
  execute 0 (fun s1 => .ok (s1.stop .haltInstr)) s

/-- `set a b` (R131): `x[a] <- b`. -/
def execSet (a b : Operand) (s : State) : Host.Outcome State Fault Refusal :=
  execute 2 (fun s1 => withTarget a fun i => s1.withVal b fun v => .ok (s1.setReg i v)) s

/-- `push a` (R132): `Push(a)`. -/
def execPush (a : Operand) (s : State) : Host.Outcome State Fault Refusal :=
  execute 1 (fun s1 => s1.withVal a fun v => s1.push (v.setWidth 21)) s

/-- Phase E of `pop` (R133): an empty stack is a fault, here and not in `ret` (R28, R235). -/
def State.popInto (s : State) (i : R3) : Except Trap State :=
  match s.stack with
  | [] => .error .stackUnderflow
  | v :: rest => .ok ({ s with stack := rest }.setReg i v)

/-- `pop a` (R133): the operand faults come before `StackUnderflow`. -/
def execPop (a : Operand) (s : State) : Host.Outcome State Fault Refusal :=
  execute 1 (fun s1 => withTarget a fun i => s1.popInto i) s

end Sys2Proof.Machine
end

