-- ==== Sys2Proof/Machine/Arbiter.lean ====
section
/-! DEFINITION. The input side of the I/O arbiter (46_io_noop.md R205 to R214) and the control console (60_exceptions.md R250
to R254). Shared operations of the instruction `in`. -/

namespace Sys2Proof.Machine

/-! ## The console's commands -/

/-- The patch of `hack`: the one a claim names, else the open one (R254; log entry 7). -/
def State.patch (s : State) : HackPatch :=
  s.params.hackPatch.getD Config.hackPatch

/-- `Dump()` (R252): one record with the registers and the stack, nothing else. -/
def State.dump (s : State) : State :=
  { s with diag := s.diag ++ [.dump s.regs s.stack] }

/-- `Hack()` (R254): three memory writes, then one register write, in that order. -/
def State.hack (s : State) : State :=
  let p := s.patch
  (((s.memWrite p.addr1 p.word1).memWrite p.addr2 p.word2).memWrite p.addr3 p.word3).setReg p.reg p.value

/-- A whole command line, compared exactly; an unknown line has no effect (R250, R253). -/
def State.command (line : List Code) (s : State) : State :=
  if line = Config.wordDump then s.dump
  else if line = Config.wordDebug then { s with trace := true }
  else if line = Config.wordNodebug then { s with trace := false }
  else if line = Config.wordHack then s.hack
  else s

/-! ## Scripted input -/

/-- The scripted part of `NextInput()` (R206): the next character with what remains of `cur` and `script`; an empty line is
skipped; `none` when the script is spent. -/
def nextScripted : List Code → List (List Code) → Option (Code × List Code × List (List Code))
  | c :: cs, script => some (c, cs, script)
  | [], [] => none
  | [], line :: rest => nextScripted line rest

/-! ## Delivery and live input -/

/-- The end of an `in` that has its character (R201): the range test, the echo, the register write, in that order (R214). -/
def State.deliver (p : PendingIn) (c : Code) (s : State) : State :=
  match toValue c with
  | .ok v => (s.emit v).setReg p.target v
  | .error t => s.raise t p.ipc

/-- `c` is the sentinel (R210). -/
def State.isSentinel (s : State) (c : Code) : Bool :=
  match s.params.sentinel with
  | some b => decide (c = b.setWidth 21)
  | none => false

/-- `LiveRead()` (R210) and `Console()` (R250) over the events the live source offers: consumed from the front until the `in`
has its character or the input ends; when the events run out first, the `in` holds (R212). -/
def State.serveLive (s : State) (p : PendingIn) : List LiveEvent → State
  | [] => { s with live := [], hold := some p }
  | .eof :: es => State.stop .inputEof { s with live := es, hold := none }
  | .char c :: es =>
    match p.line with
    | none =>
      if s.isSentinel c then s.serveLive { p with line := some [] } es
      else State.deliver p c { s with live := es, hold := none }
    | some l =>
      if c = Config.lineBreak then (s.command l).serveLive { p with line := none } es
      else s.serveLive { p with line := some (l ++ [c]) } es

/-- `NextInput()` and what follows it in an `in` (R201, R206): the script first, then the live source. -/
def State.takeInput (p : PendingIn) (s : State) : State :=
  match nextScripted s.cur s.script with
  | some (c, cs, lines) => State.deliver p c { s with cur := cs, script := lines }
  | none => State.serveLive { s with cur := [], script := [] } p s.live

end Sys2Proof.Machine
end

