-- ==== Sys2Proof/Machine/InputOutput.lean ====
section
/-! DEFINITION. `out`, `in`, `noop` (46_io_noop.md). -/

namespace Sys2Proof.Machine

/-- `out a` (R200): `Emit(a)`. -/
def execOut (a : Operand) (s : State) : Host.Outcome State Fault Refusal :=
  execute 1 (fun s1 => s1.withVal a fun c => .ok (s1.emit c)) s

/-- `in a` (R201): the target is resolved before any input is consumed; then the arbiter answers. A fault on the character
is taken by `State.deliver`, so what was consumed stays consumed (R236). -/
def execInput (a : Operand) (s : State) : Host.Outcome State Fault Refusal :=
  execute 1 (fun s1 => withTarget a fun i =>
    .ok (s1.takeInput { ipc := s.pc, target := i, line := none })) s

/-- `noop` (R202): nothing beyond the advance of the pc. -/
def execNoop (s : State) : Host.Outcome State Fault Refusal :=
  execute 0 (fun s1 => .ok s1) s

end Sys2Proof.Machine
end

