-- ==== Sys2Proof/Machine/Jump.lean ====
section
/-! DEFINITION. `jmp`, `jt`, `jf` (42_jump.md). -/

namespace Sys2Proof.Machine

/-- `jmp a` (R150): `pc <- a`. -/
def execJmp (a : Operand) (s : State) : Host.Outcome State Fault Refusal :=
  execute 1 (fun s1 => s1.withVal a fun t => .ok (s1.jump t)) s

/-- `jt a b` (R151): `if a ≠ 0 then pc <- b`; both operands are resolved whether or not the jump is taken. -/
def execJt (a b : Operand) (s : State) : Host.Outcome State Fault Refusal :=
  execute 2 (fun s1 => s1.withVal a fun v => s1.withVal b fun t =>
    .ok (if v ≠ 0 then s1.jump t else s1)) s

/-- `jf a b` (R152): `if a = 0 then pc <- b`. -/
def execJf (a b : Operand) (s : State) : Host.Outcome State Fault Refusal :=
  execute 2 (fun s1 => s1.withVal a fun v => s1.withVal b fun t =>
    .ok (if v = 0 then s1.jump t else s1)) s

end Sys2Proof.Machine
end

