-- ==== Sys2Proof/Machine/MemoryAccess.lean ====
section
/-! DEFINITION. `rmem`, `wmem` (44_memory_access.md). -/

namespace Sys2Proof.Machine

/-- Phase E of `rmem` (R180): the cell is read, then its word is tested, then the register is written. -/
def State.loadInto (s : State) (i : R3) (addr : V15) : Except Trap State :=
  match s.memRead addr.toNat with
  | .error t => .error t
  | .ok w =>
    match toValue (w.setWidth 21) with
    | .error t => .error t
    | .ok v => .ok (s.setReg i v)

/-- `rmem a b` (R180): `x[a] <- mem[b]`. -/
def execRmem (a b : Operand) (s : State) : Host.Outcome State Fault Refusal :=
  execute 2 (fun s1 => withTarget a fun i => s1.withVal b fun addr => s1.loadInto i addr) s

/-- `wmem a b` (R181): `MemWrite(a, 1, b)`; the address is the FIRST operand. -/
def execWmem (a b : Operand) (s : State) : Host.Outcome State Fault Refusal :=
  execute 2 (fun s1 => s1.withVal a fun addr => s1.withVal b fun v =>
    .ok (s1.memWrite addr (v.setWidth 16))) s

end Sys2Proof.Machine
end

