-- ==== Sys2Proof/Machine/Fetch.lean ====
section
/-! DEFINITION. Phases F1 and F2 of a step (30_encoding.md R98): the opcode word is read and looked up, then the declared
number of operand words is read, at ascending addresses, from memory as it is at that moment (R99, 20_memory.md R74). -/

namespace Sys2Proof.Machine

/-- `n` words from `addr` upwards; the first unreadable one faults (R245 (2)). -/
def State.readWords (s : State) : Nat → Nat → Except Trap (List W16)
  | _, 0 => .ok []
  | addr, n + 1 =>
    match s.memRead addr with
    | .error t => .error t
    | .ok w =>
      match s.readWords (addr + 1) n with
      | .error t => .error t
      | .ok ws => .ok (w :: ws)

/-- Phases F1 and F2: the instruction at the pc. `UnmappedAccess(ipc)`, then `UnknownOpcode(op)`, then
`UnmappedAccess(ipc + k)` (R245). The last fault of the decoder cannot occur: the words read are as many as it takes. -/
def State.fetch (s : State) : Except Trap Instr :=
  match s.memRead s.pc.toNat with
  | .error t => .error t
  | .ok op =>
    match opcodeRow op with
    | none => .error (.unknownOpcode op)
    | some r =>
      match s.readWords (s.pc.toNat + 1) r.format.arity with
      | .error t => .error t
      | .ok ws =>
        match decode (op :: ws) with
        | .ok (i, _) => .ok i
        | .error _ => .error (.unknownOpcode op)

end Sys2Proof.Machine
end

