-- ==== Sys2Proof/Machine/HostPorts.lean ====
section
/-! DEFINITION. The host's moves (60_exceptions.md R257, R258; 70_reset_and_hazards.md R270 to R277) and what the host reads
at the status port (R41, R44). -/

namespace Sys2Proof.Machine

/-- The image is one the loader takes: the stream ended, whole words, at most 32768 of them (R274). -/
def imageWords (image : List Byte) (ending : StreamEnd) : Option (List W16) :=
  match ending with
  | .abort => none
  | .endOfStream => if image.length ≤ Config.maxImageBytes then wordsOfBytes image else none

/-- `finfo` of a load error: "the number of bytes received" (R274); a number that does not fit the 21 bits leaves the
register's value open (log entry 11). -/
def loadErrorInfo (n : Nat) : Code :=
  if n < 2 ^ 21 then BitVec.ofNat 21 n else Config.loadErrorInfo n

/-- A load error (R274): HALTED with its cause and `finfo`; the content of memory is unspecified, hence free (log entry 10);
`fpc` is not written (log entry 12). -/
def State.loadFailure (s : State) (received : Nat) : State :=
  { s with
    mem := Memory.writeCells [] (Config.loadErrorCells s.free)
    free := s.free + 1 }.raise (.loadError (loadErrorInfo received)) s.fpc

/-- The loader (R272 to R276): word `k` of the image goes to cell `k`; nothing else is written. -/
def State.load (s : State) (image : List Byte) (ending : StreamEnd) : State :=
  match imageWords image ending with
  | some ws => { s with mem := s.mem.writeWords 0 ws, launch := .loaded }
  | none => s.loadFailure image.length

/-- `stop_req` (R257): `stop OPERATOR_STOP`, a held `in` having no further effect; HALTED is left as it is (R30). -/
def State.operatorStop (s : State) : State :=
  match s.run with
  | .running => State.stop .operatorStop { s with hold := none }
  | .halted => s

/-- `start` (R277): launches a core that is RUNNING; no effect when HALTED. -/
def State.startCore (s : State) : State :=
  match s.run with
  | .running => { s with launch := .started }
  | .halted => s

/-- One move of the host (R258). What the host may not do is refused by name (log entries 5, 19, 20). -/
def serveHost (m : HostMove) (s : State) : Host.Outcome State Fault Refusal :=
  match m with
  | .rst => .next s.resetBy
  | .load image ending =>
    if s.launch = .atReset ∧ s.run = .running then .next (s.load image ending) else .refused .hostProtocol
  | .script lines =>
    if s.launch = .started then .refused .hostProtocol else .next { s with script := lines }
  | .start =>
    if s.launch = .atReset ∧ s.run = .running then .refused .hostProtocol else .next s.startCore
  | .offer e => .next { s with live := s.live ++ [e] }
  | .stopReq => .next s.operatorStop

/-- What the host reads at the status port (R44). -/
structure Status where
  run : RunState
  cause : Nat
  fpc : W16
  finfo : Code
deriving DecidableEq, Repr

/-- The status port (R41, R44). -/
def State.status (s : State) : Status :=
  { run := s.run, cause := s.cause.code, fpc := s.fpc, finfo := s.finfo }

/-- The launch state of R43, as the moves of R271 leave it: an image given as words, a script, a live source and the OPEN
parameters. -/
def State.launchWith (words : List W16) (script : List (List Code)) (live : List LiveEvent) (params : Params) : State :=
  { State.reset with
    mem := Memory.writeWords [] 0 words
    script := script
    launch := .started
    live := live
    params := params }

end Sys2Proof.Machine
end

