-- ==== Sys2Proof/Machine/Cycle.lean ====
section
/-! DEFINITION. The core's own step (30_encoding.md R98) with the states in which the spec gives it none (00_scope.md R8). -/

namespace Sys2Proof.Machine

/-- Fetch, then execute; a fault of F1 or F2 leaves `pc = ipc` (R236). -/
def fetchExecute (s : State) : Host.Outcome State Fault Refusal :=
  match s.fetch with
  | .error t => .next (s.raise t s.pc)
  | .ok i => exec i s

/-- An `in` that holds goes on with the events offered since (R212). -/
def resumeInput (p : PendingIn) (s : State) : Host.Outcome State Fault Refusal :=
  match s.live with
  | [] => .fault .holding
  | es => .next (s.serveLive p es)

/-- One step of the core: none when HALTED (R8) or not launched (R270); else the held `in` goes on, or the instruction at the
pc runs whole. -/
def coreStep (s : State) : Host.Outcome State Fault Refusal :=
  match s.run, s.launch, s.hold with
  | .halted, _, _ => .fault .halted
  | .running, .atReset, _ => .fault .notStarted
  | .running, .loaded, _ => .fault .notStarted
  | .running, .started, some p => resumeInput p s
  | .running, .started, none => fetchExecute s

end Sys2Proof.Machine
end

