-- ==== Sys2Proof/Machine/Step.lean ====
section
/-! DEFINITION. One step of the machine: the host's oldest move if one stands at the ports, else the core's step (00_scope.md
R7: two agents take steps). -/

namespace Sys2Proof.Machine

/-- The two agents' step (R7, R258; log entry 4). -/
def step (s : State) : Host.Outcome State Fault Refusal :=
  match s.requests with
  | m :: ms => serveHost m { s with requests := ms }
  | [] => coreStep s

/-- The state `s` with an instruction's words where the next step fetches: at the pc, with the core launched, running, not
holding, and no host move before it (log entry 22). -/
def State.withFetchWord (s : State) (nbits w : Nat) : State :=
  { s with
    mem := s.mem.writeWords s.pc.toNat (tableWords nbits w)
    run := .running
    cause := .none
    launch := .started
    hold := none
    requests := [] }

end Sys2Proof.Machine
end

