-- ==== Sys2Proof/Safety.lean ====
section
/-! DEFINITION. What counts as a safe state and a safe end of a run, in the terms the claims use: how a run ended (00_scope.md
R9, 60_exceptions.md R259), the four outcomes of a core step (R8), and the machine's invariant. -/

namespace Sys2Proof.Machine

/-- A cause that is a fault: codes 8 to 15 (R31). -/
def Cause.isFault (c : Cause) : Bool :=
  decide (8 ≤ c.code)

/-- The run has "gone wrong" (R9). -/
def State.goneWrong (s : State) : Prop :=
  s.run = .halted ∧ s.cause.isFault = true

/-- The run "ended cleanly" (R9). -/
def State.endedCleanly (s : State) : Prop :=
  s.run = .halted ∧ (s.cause = .haltInstr ∨ s.cause = .retEmpty)

/-- What the host makes of a stop (R259). -/
inductive Verdict where
  | running
  | success
  | endOfFile
  | operator
  | failure
deriving DecidableEq, Repr

/-- R259: 8 or more is a failure, 1 or 2 a success, 3 an end of file, 4 the operator's own doing. -/
def Cause.verdict : Cause → Verdict
  | .none => .running
  | .haltInstr => .success
  | .retEmpty => .success
  | .inputEof => .endOfFile
  | .operatorStop => .operator
  | .unknownOpcode => .failure
  | .invalidNumber => .failure
  | .stackUnderflow => .failure
  | .badWriteTarget => .failure
  | .divideByZero => .failure
  | .unmappedAccess => .failure
  | .stackOverflow => .failure
  | .loadError => .failure

/-- The four outcomes of a core step (R8), as the state after it shows them. -/
inductive StepOutcome where
  | next
  | stop
  | fault
  | hold
deriving DecidableEq, Repr

/-- Which of the four outcomes a state shows (R8): RUNNING with no `in` in flight, HALTED with a non-fault cause, HALTED with
a fault cause, or an `in` that holds. -/
def State.outcome (s : State) : StepOutcome :=
  match s.run with
  | .running => if s.hold.isSome then .hold else .next
  | .halted => if s.cause.isFault then .fault else .stop

/-- The core can take an instruction's step: RUNNING, launched, no `in` in flight, no host move before it (R7, R98). -/
def State.ready (s : State) : Prop :=
  s.run = .running ∧ s.launch = .started ∧ s.hold = none ∧ s.requests = []

/-- What an `in` in flight says of the state around it (R206, R210, R212): the core runs and is launched, the pc is past the
`in`, the script is spent, and a command line is only read where there is a sentinel. -/
def State.holdInv (s : State) (p : PendingIn) : Prop :=
  s.run = .running ∧ s.launch = .started ∧ p.ipc.toNat + 2 = s.pc.toNat ∧ s.cur = [] ∧ s.script = [] ∧
    (s.params.sentinel = none → p.line = none)

/-- THE INVARIANT of every state a run reaches: the pc in `[0, 32768]` (R26), memory in its canonical form (R62), `cause = NONE`
exactly while RUNNING (R31), the stack within its capacity (R28), an `in` in flight as above, nothing of a run before `start`
(R270) and no launch after a load error (R274). -/
structure State.Inv (s : State) : Prop where
  pc_range : s.pc.toNat ≤ 32768
  mem_wf : s.mem.wf = true
  cause_none : s.cause = .none ↔ s.run = .running
  stack_cap : ∀ k, s.params.stackCap = some k → s.stack.length ≤ k
  hold_ok : ∀ p, s.hold = some p → s.holdInv p
  before_start : s.launch ≠ .started →
    s.hold = none ∧ s.pc = 0 ∧ s.stack = [] ∧ s.out = [] ∧ s.diag = [] ∧ s.cur = [] ∧ s.trace = false ∧
      (∀ i, s.reg i = 0) ∧ (s.cause = .none ∨ s.cause = .loadError ∨ s.cause = .operatorStop)
  load_error : s.cause = .loadError → s.launch = .atReset

end Sys2Proof.Machine
end

