-- ==== Sys2Proof/Certificates/Slice0/Obligations.lean ====
section
/-! DEFINITION. The statements about the machine, from the numbered rules of the spec, and the few abbreviations they share.
Every result statement gives the WHOLE next state as an update of the state before, so that what it does not name is unchanged:
it is the instruction's result, its completion and its frame at once. `s.traceStep` is `s` but for `DIAG` (and the counter of
free values) while `trace = 1`: `TraceRecordPerStep` says so. -/

namespace Sys2Proof.Claims

open Sys2Proof.Machine

/-- A fault of phase D or E (R236): the pc past the instruction of `n` operands, HALTED, the cause, `fpc = ipc`, `finfo`. -/
def faulted (n : Nat) (c : Cause) (info : Code) (s : State) : State :=
  { s.traceStep with pc := s.pc + BitVec.ofNat 16 (1 + n), run := .halted, cause := c, fpc := s.pc, finfo := info }

/-- A fault of phase F1 or F2 (R236): as above, but the pc stays at `ipc` and no trace record is made (R255). -/
def fetchFaulted (c : Cause) (info : Code) (s : State) : State :=
  { s with run := .halted, cause := c, fpc := s.pc, finfo := info }

/-- The faults of a write-target operand (R97): an invalid word, then a literal. -/
def TargetFaults (n : Nat) (mk : Operand → Instr) (s : State) : Prop :=
  (∀ w, exec (mk (.bad w)) s = .next (faulted n .invalidNumber (w.setWidth 21) s)) ∧
    ∀ v, exec (mk (.lit v)) s = .next (faulted n .badWriteTarget (v.setWidth 21) s)

/-- The fault of a value operand (R96): an invalid word. -/
def ValueFaults (n : Nat) (mk : Operand → Instr) (s : State) : Prop :=
  ∀ w, exec (mk (.bad w)) s = .next (faulted n .invalidNumber (w.setWidth 21) s)

/-- The operand faults of a three-operand instruction, in the order `a`, `b`, `c` (R160). -/
def OperandFaults3 (mk : Operand → Operand → Operand → Instr) (s : State) : Prop :=
  (∀ b c, TargetFaults 3 (fun a => mk a b c) s) ∧
    (∀ i c, ValueFaults 3 (fun b => mk (.reg i) b c) s) ∧
    ∀ i b x, s.val b = .ok x → ValueFaults 3 (fun c => mk (.reg i) b c) s

/-- The whole rule of a three-operand instruction whose result is `f b c`: encoding, effect, operand faults. -/
def AluRule (opcode : W16) (mk : Operand → Operand → Operand → Instr) (f : V15 → V15 → V15) : Prop :=
  (∀ a b c, encode (mk a b c) = [opcode, a.word, b.word, c.word]) ∧
    ∀ s, (∀ i b c x y, s.val b = .ok x → s.val c = .ok y →
        exec (mk (.reg i) b c) s = .next { s.traceStep with pc := s.pc + 4, regs := s.regs.set i (f x y) }) ∧
      OperandFaults3 mk s

/-- `c` is the next scripted character (R206): the next of the line being consumed, or the first of the next line that has one;
what `cur` and `script` are after it. -/
def NextScripted (s : State) (c : Code) (cur : List Code) (script : List (List Code)) : Prop :=
  (s.cur = c :: cur ∧ s.script = script) ∨
    (s.cur = [] ∧ ∃ k, s.script = List.replicate k [] ++ (c :: cur) :: script)

/-- No scripted character remains: the live source is asked (R206). -/
def ScriptSpent (s : State) : Prop :=
  s.cur = [] ∧ ∀ line ∈ s.script, line = []

/-- `c` is not the sentinel (R210). -/
def NotSentinel (s : State) (c : Code) : Prop :=
  ∀ b, s.params.sentinel = some b → c ≠ b.setWidth 21

/-- An `in` whose console can run: only there may a host's patch write the core's state (R251, R254). -/
def consoleCanRun (i : Instr) (s : State) : Prop :=
  (∃ o, i = .input o) ∧ s.params.sentinel ≠ none

/-- The core's step stands before an event of the live source: an `in` holds and no host move comes first. -/
def held (s : State) (p : PendingIn) : Prop :=
  s.run = .running ∧ s.launch = .started ∧ s.hold = some p ∧ s.requests = []

/-- `es` is what the live source still has to give for the command line of an `in` that holds with `p` to be `line`, its end not
yet there (R210, R250): the sentinel and the whole line, or, the console being open, what comes after the part already read. -/
def CommandText (s : State) (p : PendingIn) (line : List Code) (es : List LiveEvent) : Prop :=
  (p.line = none ∧ ∃ b : Byte, s.params.sentinel = some b ∧ (10 : Code) ∉ line ∧
    es = .char (b.setWidth 21) :: line.map LiveEvent.char) ∨
  ∃ l more, p.line = some l ∧ line = l ++ more ∧ (10 : Code) ∉ more ∧ es = more.map LiveEvent.char

/-- An `in` that has begun, the script being spent, and waits for the live source (R212). -/
def begun (s : State) (i : R3) : State :=
  { s.traceStep with
    pc := s.pc + 2, cur := [], script := [], hold := some { ipc := s.pc, target := i, line := none } }

end Sys2Proof.Claims

open Sys2Proof Sys2Proof.Machine Sys2Proof.Claims

/-! ## Encoding -/

/-- Words written out from R91, R94 and the source's scenario S7 decode to their instructions; a word that is no opcode does
not. -/
def Obligations.WrittenOutWordsDecode : Prop :=
  decode [0] = .ok (.halt, []) ∧
    decode [0x0009, 0x8000, 0x8001, 0x0004, 0x0013, 0x8000, 0x0000] =
      .ok (.add (.reg 0) (.reg 1) (.lit 4), [0x0013, 0x8000, 0x0000]) ∧
    decode [0x0013, 0x8000, 0x0000] = .ok (.out (.reg 0), [0x0000]) ∧
    decode [0x0005, 0x8007, 0x7FFF, 0x8008] = .ok (.gt (.reg 7) (.lit 32767) (.bad 32776), []) ∧
    decode [0x0007, 0x8000, 0x0003] = .ok (.jt (.reg 0) (.lit 3), []) ∧
    decode [0x0010, 0x0007, 0x0059] = .ok (.wmem (.lit 7) (.lit 89), []) ∧
    decode [0x0011, 0x0006] = .ok (.call (.lit 6), []) ∧
    decode [0x0002, 0x8002] = .ok (.push (.reg 2), []) ∧
    decode [0x0014, 0x8000] = .ok (.input (.reg 0), []) ∧
    decode [0x0015] = .ok (.noop, []) ∧
    decode [0x8000] = .error (.unknownOpcode 0x8000)

/-- Every operand of every instruction survives encoding and decoding, whatever words follow. -/
def Obligations.DecodeOfEncode : Prop :=
  ∀ (i : Instr) (rest : List W16), i.encodable = true → decode (encode i ++ rest) = .ok (i, rest)

/-- Whatever decodes is the encoding of what it decodes to: no word has two readings and none is dropped. -/
def Obligations.EncodeOfDecode : Prop :=
  ∀ (ws rest : List W16) (i : Instr), decode ws = .ok (i, rest) → i.encodable = true ∧ ws = encode i ++ rest

/-- R94, R103: the operand count of every opcode word, and the length of an instruction, a function of that word alone. -/
def Obligations.OpcodeWordFixesLength : Prop :=
  (∀ op : W16, opcodeArity op = [0, 2, 1, 1, 3, 3, 1, 2, 2, 3, 3, 3, 3, 3, 2, 2, 2, 1, 0, 1, 1, 0][op.toNat]?) ∧
    ∀ (op : W16) (ws rest : List W16) (i : Instr) (n : Nat),
      decode (op :: ws) = .ok (i, rest) → opcodeArity op = some n → (encode i).length = 1 + n

/-- R11, R91: the three classes of a word, exactly one of which holds; their bits; and the operand each stands for. -/
def Obligations.OperandWordClasses : Prop :=
  ∀ w : W16,
    (isLit w = true ↔ w.toNat ≤ 32767) ∧ (isReg w = true ↔ 32768 ≤ w.toNat ∧ w.toNat ≤ 32775) ∧
    (isBad w = true ↔ 32776 ≤ w.toNat) ∧
    (isLit w = true ↔ w.getLsbD 15 = false) ∧
    (isReg w = true ↔ w.getLsbD 15 = true ∧ w.extractLsb 14 3 = 0) ∧
    (isBad w = true ↔ w.getLsbD 15 = true ∧ w.extractLsb 14 3 ≠ 0) ∧
    (isLit w = true → Operand.ofWord w = .lit (w.extractLsb 14 0)) ∧
    (isReg w = true → ∃ i : R3, Operand.ofWord w = .reg i ∧ i.val = w.toNat - 32768 ∧ i.val = (w.extractLsb 2 0).toNat) ∧
    (isBad w = true → Operand.ofWord w = .bad w) ∧
    (Operand.ofWord w).word = w

/-! ## Operands -/

/-- R96: `val(w)` for every raw operand word. -/
def Obligations.ValueOperandResolution : Prop :=
  ∀ (s : State) (w : W16),
    (w.toNat ≤ 32767 → s.val (.ofWord w) = .ok (w.setWidth 15)) ∧
    (∀ i : R3, w.toNat = 32768 + i.val → s.val (.ofWord w) = .ok (s.reg i)) ∧
    (32776 ≤ w.toNat → s.val (.ofWord w) = .error (.invalidNumber (w.setWidth 21)))

/-- R97: `tgt(w)` for every raw operand word. -/
def Obligations.WriteTargetResolution : Prop :=
  ∀ w : W16,
    (∀ i : R3, w.toNat = 32768 + i.val → target (.ofWord w) = .ok i) ∧
    (32776 ≤ w.toNat → target (.ofWord w) = .error (.invalidNumber (w.setWidth 21))) ∧
    (w.toNat ≤ 32767 → target (.ofWord w) = .error (.badWriteTarget w))

/-- Phase T (R33, R98): nothing while `trace = 0`; one record at the end of `DIAG` while `trace = 1`. The record's content is
a free value, and the counter is the model's own (log entry 8). -/
def Obligations.TraceRecordPerStep : Prop :=
  ∀ s : State,
    (s.trace = false → s.traceStep = s) ∧
    (s.trace = true → ∃ content, s.traceStep = { s with diag := s.diag ++ [.trace content], free := s.free + 1 })

/-! ## halt, set, push, pop -/

/-- R130. -/
def Obligations.HaltStopsTheMachine : Prop :=
  encode .halt = [0] ∧
    ∀ s : State,
      exec .halt s = .next { s.traceStep with pc := s.pc + 1, run := .halted, cause := .haltInstr } ∧
      (s.requests = [] → ∀ t, exec .halt s = .next t → step t = .fault .halted)

/-- R131. -/
def Obligations.SetWritesRegister : Prop :=
  (∀ a b, encode (.set a b) = [1, a.word, b.word]) ∧
    ∀ s : State,
      (∀ i b v, s.val b = .ok v →
        exec (.set (.reg i) b) s = .next { s.traceStep with pc := s.pc + 3, regs := s.regs.set i v }) ∧
      (∀ b, TargetFaults 2 (fun a => .set a b) s) ∧ ∀ i, ValueFaults 2 (fun b => .set (.reg i) b) s

/-- R132: the push, the fault of its operand, and `StackOverflow` exactly at a finite capacity. -/
def Obligations.PushStoresOnStack : Prop :=
  (∀ a, encode (.push a) = [2, a.word]) ∧
    ∀ s : State,
      (∀ a v, s.val a = .ok v → s.params.stackCap ≠ some s.stack.length →
        exec (.push a) s = .next { s.traceStep with pc := s.pc + 2, stack := v :: s.stack }) ∧
      (∀ a v, s.val a = .ok v → s.params.stackCap = some s.stack.length →
        exec (.push a) s = .next (faulted 1 .stackOverflow (v.setWidth 21) s)) ∧
      ValueFaults 1 .push s

/-- R133: the pop; on an empty stack `StackUnderflow`, after the faults of the operand. -/
def Obligations.PopTakesTopOfStack : Prop :=
  (∀ a, encode (.pop a) = [3, a.word]) ∧
    ∀ s : State,
      (∀ i v rest, s.stack = v :: rest →
        exec (.pop (.reg i)) s =
          .next { s.traceStep with pc := s.pc + 2, stack := rest, regs := s.regs.set i v }) ∧
      (∀ i, s.stack = [] → exec (.pop (.reg i)) s = .next (faulted 1 .stackUnderflow 0 s)) ∧
      TargetFaults 1 .pop s

/-! ## eq, gt -/

/-- R140. -/
def Obligations.EqWritesTruthValue : Prop :=
  AluRule 4 .eq (fun x y => if x.toNat = y.toNat then 1 else 0)

/-- R141: strict and unsigned. -/
def Obligations.GtWritesTruthValue : Prop :=
  AluRule 5 .gt (fun x y => if y.toNat < x.toNat then 1 else 0)

/-! ## jmp, jt, jf -/

/-- R150. -/
def Obligations.JmpSetsPc : Prop :=
  (∀ a, encode (.jmp a) = [6, a.word]) ∧
    ∀ s : State,
      (∀ a t, s.val a = .ok t → exec (.jmp a) s = .next { s.traceStep with pc := t.setWidth 16 }) ∧
      ValueFaults 1 .jmp s

/-- R151: the target is resolved, and can fault, whether or not the jump is taken. -/
def Obligations.JtJumpsOnNonZero : Prop :=
  (∀ a b, encode (.jt a b) = [7, a.word, b.word]) ∧
    ∀ s : State,
      (∀ a b v t, s.val a = .ok v → s.val b = .ok t →
        exec (.jt a b) s = .next { s.traceStep with pc := if v.toNat = 0 then s.pc + 3 else t.setWidth 16 }) ∧
      (∀ b, ValueFaults 2 (fun a => .jt a b) s) ∧
      ∀ a v, s.val a = .ok v → ValueFaults 2 (fun b => .jt a b) s

/-- R152. -/
def Obligations.JfJumpsOnZero : Prop :=
  (∀ a b, encode (.jf a b) = [8, a.word, b.word]) ∧
    ∀ s : State,
      (∀ a b v t, s.val a = .ok v → s.val b = .ok t →
        exec (.jf a b) s = .next { s.traceStep with pc := if v.toNat = 0 then t.setWidth 16 else s.pc + 3 }) ∧
      (∀ b, ValueFaults 2 (fun a => .jf a b) s) ∧
      ∀ a v, s.val a = .ok v → ValueFaults 2 (fun b => .jf a b) s

/-! ## add, mult, mod, and, or, not -/

/-- R160. -/
def Obligations.AddWrapsModulo32768 : Prop :=
  AluRule 9 .add (fun x y => BitVec.ofNat 15 ((x.toNat + y.toNat) % 32768))

/-- R161: the product is exact before the reduction. -/
def Obligations.MultWrapsModulo32768 : Prop :=
  AluRule 10 .mult (fun x y => BitVec.ofNat 15 ((x.toNat * y.toNat) % 32768))

/-- R162: the remainder is below the divisor; a zero divisor is `DivideByZero(b)`, after the operand faults. -/
def Obligations.ModIsRemainderOrDivideByZero : Prop :=
  (∀ a b c, encode (.mod a b c) = [11, a.word, b.word, c.word]) ∧
    ∀ s : State,
      (∀ i b c x y, s.val b = .ok x → s.val c = .ok y → y.toNat ≠ 0 →
        ∃ r : V15, r.toNat = x.toNat % y.toNat ∧ r.toNat < y.toNat ∧
          exec (.mod (.reg i) b c) s = .next { s.traceStep with pc := s.pc + 4, regs := s.regs.set i r }) ∧
      (∀ i b c x, s.val b = .ok x → s.val c = .ok 0 →
        exec (.mod (.reg i) b c) s = .next (faulted 3 .divideByZero (x.setWidth 21) s)) ∧
      OperandFaults3 .mod s

/-- R163: bit by bit on bits 14 to 0. -/
def Obligations.AndIsBitwise : Prop :=
  AluRule 12 .and (fun x y => BitVec.ofNat 15 (x.toNat &&& y.toNat))

/-- R164: bit by bit on bits 14 to 0. -/
def Obligations.OrIsBitwise : Prop :=
  AluRule 13 .or (fun x y => BitVec.ofNat 15 (x.toNat ||| y.toNat))

/-- R165: `(~b) & 0x7FFF` on the 16-bit word, which is `32767 − b`. -/
def Obligations.NotComplements15Bits : Prop :=
  (∀ a b, encode (.not a b) = [14, a.word, b.word]) ∧
    ∀ s : State,
      (∀ i b x, s.val b = .ok x →
        ∃ r : V15, r.setWidth 16 = ~~~(x.setWidth 16) &&& 0x7FFF#16 ∧ r.toNat = 32767 - x.toNat ∧
          exec (.not (.reg i) b) s = .next { s.traceStep with pc := s.pc + 3, regs := s.regs.set i r }) ∧
      (∀ b, TargetFaults 2 (fun a => .not a b) s) ∧ ∀ i, ValueFaults 2 (fun b => .not (.reg i) b) s

/-! ## rmem, wmem -/

/-- R180: the cell's word when a register can hold it; else `UnmappedAccess`, or `InvalidNumber`. -/
def Obligations.RmemReadsCell : Prop :=
  (∀ a b, encode (.rmem a b) = [15, a.word, b.word]) ∧
    ∀ s : State,
      (∀ i b addr w, s.val b = .ok addr → s.mem.read addr.toNat = some w → w.toNat ≤ 32767 →
        exec (.rmem (.reg i) b) s =
          .next { s.traceStep with pc := s.pc + 3, regs := s.regs.set i (w.setWidth 15) }) ∧
      (∀ i b addr, s.val b = .ok addr → s.mem.read addr.toNat = none →
        exec (.rmem (.reg i) b) s = .next (faulted 2 .unmappedAccess (addr.setWidth 21) s)) ∧
      (∀ i b addr w, s.val b = .ok addr → s.mem.read addr.toNat = some w → 32767 < w.toNat →
        exec (.rmem (.reg i) b) s = .next (faulted 2 .invalidNumber (w.setWidth 21) s)) ∧
      (∀ b, TargetFaults 2 (fun a => .rmem a b) s) ∧ ∀ i, ValueFaults 2 (fun b => .rmem (.reg i) b) s

/-- R181: the cell addressed by the FIRST operand becomes written with the second's value; every other cell reads as before. -/
def Obligations.WmemWritesCell : Prop :=
  (∀ a b, encode (.wmem a b) = [16, a.word, b.word]) ∧
    ∀ s : State,
      (∀ a b addr v, s.val a = .ok addr → s.val b = .ok v →
        ∃ t, exec (.wmem a b) s = .next t ∧ t = { s.traceStep with pc := s.pc + 3, mem := t.mem } ∧
          t.mem.read addr.toNat = some (v.setWidth 16) ∧
          ∀ other, other ≠ addr.toNat → t.mem.read other = s.mem.read other) ∧
      (∀ b, ValueFaults 2 (fun a => .wmem a b) s) ∧
      ∀ a addr, s.val a = .ok addr → ValueFaults 2 (fun b => .wmem a b) s

/-! ## call, ret -/

/-- R190: the return address is the advanced pc; 32768 is no stack value (`ipc = 32766`); a full stack overflows. -/
def Obligations.CallPushesReturnAddress : Prop :=
  (∀ a, encode (.call a) = [17, a.word]) ∧
    ∀ s : State,
      (∀ a t, s.val a = .ok t → s.pc.toNat + 2 ≤ 32767 → s.params.stackCap ≠ some s.stack.length →
        exec (.call a) s =
          .next { s.traceStep with pc := t.setWidth 16, stack := BitVec.ofNat 15 (s.pc.toNat + 2) :: s.stack }) ∧
      (∀ a t, s.val a = .ok t → s.pc.toNat = 32766 →
        exec (.call a) s = .next (faulted 1 .invalidNumber 32768 s)) ∧
      (∀ a t, s.val a = .ok t → s.pc.toNat + 2 ≤ 32767 → s.params.stackCap = some s.stack.length →
        exec (.call a) s = .next (faulted 1 .stackOverflow (BitVec.ofNat 21 (s.pc.toNat + 2)) s)) ∧
      ValueFaults 1 .call s

/-- R191: the top of the stack, or the clean stop. -/
def Obligations.RetPopsOrStops : Prop :=
  encode .ret = [18] ∧
    ∀ s : State,
      (∀ t rest, s.stack = t :: rest →
        exec .ret s = .next { s.traceStep with pc := t.setWidth 16, stack := rest }) ∧
      (s.stack = [] → exec .ret s = .next { s.traceStep with pc := s.pc + 1, run := .halted, cause := .retEmpty })

/-! ## out, in, noop -/

/-- R200: the full 15-bit code. -/
def Obligations.OutEmitsCode : Prop :=
  (∀ a, encode (.out a) = [19, a.word]) ∧
    ∀ s : State,
      (∀ a v, s.val a = .ok v → exec (.out a) s = .next { s.traceStep with pc := s.pc + 2, out := s.out ++ [v] }) ∧
      ValueFaults 1 .out s

/-- R201 (R206, R207, R211): a scripted character (sentinel or not), or, the script being spent, a live one that is not the
sentinel, is consumed, echoed and written; a code above 32767 faults after it is consumed and before the echo; the live
source's end stops the run; without a live event the `in` holds (the fields `hold` and `live` as log entry 3 says); the operand
faults come before any input is touched. -/
def Obligations.InputReadsOneCharacter : Prop :=
  (∀ a, encode (.input a) = [20, a.word]) ∧
    ∀ s : State,
      (∀ i c cs lines, NextScripted s c cs lines → c.toNat ≤ 32767 →
        exec (.input (.reg i)) s =
          .next { s.traceStep with
            pc := s.pc + 2, cur := cs, script := lines, out := s.out ++ [c.setWidth 15],
            regs := s.regs.set i (c.setWidth 15) }) ∧
      (∀ i c cs lines, NextScripted s c cs lines → 32767 < c.toNat →
        exec (.input (.reg i)) s = .next (faulted 1 .invalidNumber c { s with cur := cs, script := lines })) ∧
      (∀ i c es, ScriptSpent s → s.live = .char c :: es → NotSentinel s c → c.toNat ≤ 32767 →
        exec (.input (.reg i)) s =
          .next { s.traceStep with
            pc := s.pc + 2, cur := [], script := [], live := es, hold := none, out := s.out ++ [c.setWidth 15],
            regs := s.regs.set i (c.setWidth 15) }) ∧
      (∀ i c es, ScriptSpent s → s.live = .char c :: es → NotSentinel s c → 32767 < c.toNat →
        exec (.input (.reg i)) s =
          .next (faulted 1 .invalidNumber c { s with cur := [], script := [], live := es, hold := none })) ∧
      (∀ i es, ScriptSpent s → s.live = .eof :: es →
        exec (.input (.reg i)) s =
          .next { s.traceStep with
            pc := s.pc + 2, cur := [], script := [], live := es, hold := none, run := .halted, cause := .inputEof }) ∧
      (∀ i, ScriptSpent s → s.live = [] →
        exec (.input (.reg i)) s =
          .next { s.traceStep with
            pc := s.pc + 2, cur := [], script := [], hold := some { ipc := s.pc, target := i, line := none } }) ∧
      TargetFaults 1 .input s

/-- The end of live input (46_io_noop.md section 3) while an `in` waits, be it in the step that began it or in a later one, the
console open or not. R213 speaks of the one step of the `in`: that a hold is ended by a LATER step, and its field `hold`, are the
model's choice (log entry 3). -/
def Obligations.EndOfLiveInputStops : Prop :=
  (∀ s i es, ScriptSpent s → s.live = .eof :: es →
    ∃ t, exec (.input (.reg i)) s = .next t ∧ t.run = .halted ∧ t.cause = .inputEof ∧ t.cause.code = 3 ∧
      t.cause.isFault = false ∧ t.regs = s.regs ∧ t.out = s.out ∧ t.pc = s.pc + 2) ∧
    ∀ s p es, held s p → s.live = .eof :: es →
      step s = .next { s with live := es, hold := none, run := .halted, cause := .inputEof }

/-- The hold (R212, R256): the core has no step while an `in` holds and no event is offered; an event the host offers stands at
the end of the live source and changes nothing else; an offered character ends the wait as if it had been there. (The field
`hold` is the model's, log entry 3.) -/
def Obligations.InputHoldsUntilOffered : Prop :=
  (∀ s p, held s p → s.live = [] → step s = .fault .holding) ∧
    (∀ s e ms, s.requests = .offer e :: ms → step s = .next { s with live := s.live ++ [e], requests := ms }) ∧
    ∀ s p c es, held s p → p.line = none → s.live = .char c :: es → NotSentinel s c → c.toNat ≤ 32767 →
      step s =
        .next { s with
          live := es, hold := none, out := s.out ++ [c.setWidth 15], regs := s.regs.set p.target (c.setWidth 15) }

/-- When the host offers the live events cannot be told from the outcome (46_io_noop.md section 3): whatever part `es` of the
events an `in` is given first, in the step that begins it or in a later one, inside a command line or not, the rest `fs` offered
afterwards leads where all of them offered at once lead: the rest is left when `es` ended the `in`, and the `in` goes on from
where it holds, its command line so far included, when it did not. (The split of a holding `in` into several steps, and the
field `hold`, are the model's choice, log entry 3.) -/
def Obligations.WaitingMakesNoDifference : Prop :=
  (∀ (s : State) (i : R3) (es fs : List LiveEvent), s.ready → fs ≠ [] →
    ∃ t, exec (.input (.reg i)) { s with live := es } = .next t ∧
      (t.hold = none → exec (.input (.reg i)) { s with live := es ++ fs } = .next { t with live := t.live ++ fs }) ∧
      (t.hold ≠ none → t.live = [] ∧ exec (.input (.reg i)) { s with live := es ++ fs } = step { t with live := fs })) ∧
    ∀ (s : State) (p : PendingIn) (es fs : List LiveEvent), held s p → es ≠ [] → fs ≠ [] →
      ∃ t, step { s with live := es } = .next t ∧
        (t.hold = none → step { s with live := es ++ fs } = .next { t with live := t.live ++ fs }) ∧
        (t.hold ≠ none → t.live = [] ∧ step { s with live := es ++ fs } = step { t with live := fs })

/-- R208: the pair (`cur`, `script`) behaves as the one queue `cur ++ concat(script)`; once that is empty the live source
answers. -/
def Obligations.ScriptIsOneQueue : Prop :=
  ∀ s : State,
    (∀ i c q, s.cur ++ s.script.flatten = c :: q → c.toNat ≤ 32767 →
      ∃ cs lines, cs ++ lines.flatten = q ∧
        exec (.input (.reg i)) s =
          .next { s.traceStep with
            pc := s.pc + 2, cur := cs, script := lines, out := s.out ++ [c.setWidth 15],
            regs := s.regs.set i (c.setWidth 15) }) ∧
    ∀ i, s.cur ++ s.script.flatten = [] →
      exec (.input (.reg i)) s = exec (.input (.reg i)) { s with cur := [], script := [] }

/-- R202. -/
def Obligations.NoopOnlyAdvances : Prop :=
  encode .noop = [21] ∧ ∀ s : State, exec .noop s = .next { s.traceStep with pc := s.pc + 1 }

/-! ## The control console -/

/-- What each command changes (60_exceptions.md section 7), all else being left; any other line changes nothing. The patch is the
one the parameters name. The character codes of the four words are presumed (log entry 17), and the form of a dump record, the
registers and the stack it contains, is the model's choice (log entry 9). -/
def Obligations.ConsoleCommandEffects : Prop :=
  ∀ s : State,
    s.command [100, 117, 109, 112] = { s with diag := s.diag ++ [.dump s.regs s.stack] } ∧
    s.command [100, 101, 98, 117, 103] = { s with trace := true } ∧
    s.command [110, 111, 100, 101, 98, 117, 103] = { s with trace := false } ∧
    (∀ p, s.params.hackPatch = some p →
      s.command [104, 97, 99, 107] =
        { s with
          mem := ((s.mem.write p.addr1 p.word1).write p.addr2 p.word2).write p.addr3 p.word3
          regs := s.regs.set p.reg p.value }) ∧
    ∀ line, line ≠ [100, 117, 109, 112] → line ≠ [100, 101, 98, 117, 103] → line ≠ [110, 111, 100, 101, 98, 117, 103] →
      line ≠ [104, 97, 99, 107] → s.command line = s

/-- What a held `in` does with a command line (46_io_noop.md section 3, 60_exceptions.md section 7), whether the console is entered
now or was entered in an earlier step: none of the line is delivered or echoed. A whole line is applied and the same `in` goes on
with what follows, or holds again when nothing does; a line without its end is kept, with what was read before, for the next
events; the end of input inside the line stops the run and applies nothing. That the line break is code 10 is presumed (log
entry 17); the held `in` and its field `hold` are the model's choice (log entry 3). -/
def Obligations.ConsoleRunsOneLine : Prop :=
  ∀ (s : State) (p : PendingIn) (line : List Code) (es : List LiveEvent), held s p → CommandText s p line es →
    (∀ rest, rest ≠ [] → s.live = es ++ .char 10 :: rest →
      step s = step { s.command line with live := rest, hold := some { p with line := none } }) ∧
    (s.live = es ++ [.char 10] →
      step s = .next { s.command line with live := [], hold := some { p with line := none } }) ∧
    (es ≠ [] → s.live = es → step s = .next { s with live := [], hold := some { p with line := some line } }) ∧
    ∀ rest, s.live = es ++ .eof :: rest →
      step s = .next { s with live := rest, hold := none, run := .halted, cause := .inputEof }

/-- The same in the step that begins the `in` (its phases F3 and T come first): the sentinel and a command line are taken within
it. (Log entries 3 and 17, as for ConsoleRunsOneLine.) -/
def Obligations.InputRunsTheConsole : Prop :=
  ∀ (s : State) (i : R3) (line : List Code) (es : List LiveEvent),
    s.ready → ScriptSpent s → CommandText s { ipc := s.pc, target := i, line := none } line es →
    (∀ rest, rest ≠ [] → s.live = es ++ .char 10 :: rest →
      exec (.input (.reg i)) s = step { (begun s i).command line with live := rest }) ∧
    (s.live = es ++ [.char 10] → exec (.input (.reg i)) s = .next { (begun s i).command line with live := [] }) ∧
    (s.live = es →
      exec (.input (.reg i)) s =
        .next { begun s i with live := [], hold := some { ipc := s.pc, target := i, line := some line } }) ∧
    ∀ rest, s.live = es ++ .eof :: rest →
      exec (.input (.reg i)) s =
        .next { begun s i with live := rest, hold := none, run := .halted, cause := .inputEof }

/-! ## The step -/

/-- A step runs the instruction whose words stand at the pc (R98), in a state in which the core can step. -/
def Obligations.StepRunsInstructionAtPc : Prop :=
  ∀ (s : State) (i : Instr),
    s.ready → i.encodable = true → s.pc.toNat + (encode i).length ≤ 32768 →
    (∀ k w, (encode i)[k]? = some w → s.mem.read (s.pc.toNat + k) = some w) →
    step s = exec i s

/-- R239, R245: a fetch from an unwritten cell or from above 32767 faults, the opcode word first and the operand words in
ascending order; the pc stays. -/
def Obligations.UnreadableFetchFaults : Prop :=
  ∀ s : State, s.ready →
    (32767 < s.pc.toNat ∨ s.mem.read s.pc.toNat = none →
      step s = .next (fetchFaulted .unmappedAccess (s.pc.setWidth 21) s)) ∧
    ∀ op n k, s.pc.toNat ≤ 32767 → s.mem.read s.pc.toNat = some op → opcodeArity op = some n → 1 ≤ k → k ≤ n →
      (∀ j, 1 ≤ j → j < k → s.pc.toNat + j ≤ 32767 ∧ s.mem.read (s.pc.toNat + j) ≠ none) →
      (32767 < s.pc.toNat + k ∨ s.mem.read (s.pc.toNat + k) = none) →
      step s = .next (fetchFaulted .unmappedAccess (BitVec.ofNat 21 (s.pc.toNat + k)) s)

/-- R100, R233: an opcode word outside `[0, 21]` faults before any operand is read; the pc stays. Every other opcode word
decodes when its operand words are there. -/
def Obligations.UnknownOpcodeFaults : Prop :=
  (∀ (op : W16) (ws : List W16), decode (op :: ws) = .error (.unknownOpcode op) ↔ 21 < op.toNat) ∧
    ∀ (s : State) (op : W16), s.ready → s.pc.toNat ≤ 32767 → s.mem.read s.pc.toNat = some op → 21 < op.toNat →
      step s = .next (fetchFaulted .unknownOpcode (op.setWidth 21) s)

/-- The four outcomes of a core step (00_scope.md section 4): from a running state it shows exactly one of next, stop with a cause
of the program's or of the input's end, fault with its `fpc`, or hold. The spec gives a hold no new state yet: that it is a next
state with the field `hold` set is the model's choice (log entry 3). -/
def Obligations.FourOutcomesOfAStep : Prop :=
  ∀ s : State, s.ready → s.cause = .none →
    ∃ t, step s = .next t ∧
      ((t.run = .running ∧ t.hold = none ∧ t.cause = .none) ∨
        (t.run = .halted ∧ t.hold = none ∧ (t.cause = .haltInstr ∨ t.cause = .retEmpty ∨ t.cause = .inputEof) ∧
          t.fpc = s.fpc ∧ t.finfo = s.finfo) ∨
        (t.run = .halted ∧ t.hold = none ∧ t.cause.isFault = true ∧ t.cause ≠ .loadError ∧ t.fpc = s.pc) ∨
        (t.run = .running ∧ t.cause = .none ∧ t.live = [] ∧
          ∃ p, t.hold = some p ∧ p.ipc = s.pc ∧ t.pc = s.pc + 2))

/-- R30, R244: HALTED has no core step, and whatever the host does short of a reset leaves the machine as it stopped. -/
def Obligations.HaltedIsTerminal : Prop :=
  ∀ s : State, s.run = .halted →
    (s.requests = [] → step s = .fault .halted) ∧
    ∀ t, step s = .next t → (∀ ms, s.requests ≠ .rst :: ms) →
      t.run = .halted ∧ t.cause = s.cause ∧ t.fpc = s.fpc ∧ t.finfo = s.finfo ∧ t.regs = s.regs ∧ t.pc = s.pc ∧
        t.stack = s.stack ∧ t.mem = s.mem ∧ t.out = s.out ∧ t.diag = s.diag ∧ t.trace = s.trace ∧ t.launch = s.launch

/-! ## Reset, load, start, stop -/

/-- What reset leaves (70_reset_and_hazards.md section 1, 10_state.md section 9), at power-on and by `rst` in any
state, HALTED included; before `start` the core takes no step; nothing but reset leads out of HALTED. (`hold` and `launch` are
the model's, log entries 1 and 3.) -/
def Obligations.ResetValues : Prop :=
  (∀ t : State, t = State.reset ∨ (∃ s ms, s.requests = .rst :: ms ∧ step s = .next t) →
    (∀ i, t.reg i = 0) ∧ t.pc = 0 ∧ t.stack = [] ∧ (∀ a, t.mem.read a = none) ∧ t.run = .running ∧ t.cause = .none ∧
      t.trace = false ∧ t.cur = [] ∧ t.script = [] ∧ t.out = [] ∧ t.diag = [] ∧ t.hold = none ∧ t.launch = .atReset) ∧
    (∀ s ms, s.requests = .rst :: ms → ∃ t, step s = .next t) ∧
    (∀ s : State, s.run = .running → s.launch ≠ .started → s.requests = [] → step s = .fault .notStarted) ∧
    ∀ s t : State, s.run = .halted → step s = .next t → t.run = .running → ∃ ms, s.requests = .rst :: ms

/-- A good image's word `k`, low byte first, goes to cell `k`; every other cell, and all other state but the launch
position, is left (70_reset_and_hazards.md section 1). The launch position and its change to loaded are the model's reading (log
entry 1). -/
def Obligations.LoaderWritesImage : Prop :=
  ∀ (s : State) (image : List Byte) (ms : List HostMove) (n : Nat),
    s.requests = .load image .endOfStream :: ms → s.launch = .atReset → s.run = .running →
    image.length = 2 * n → n ≤ 32768 →
    ∃ t, step s = .next t ∧ t = { s with mem := t.mem, launch := .loaded, requests := ms } ∧
      (∀ k, k < n → t.mem.read k =
        some (BitVec.ofNat 16 ((image.getD (2 * k) 0).toNat + 256 * (image.getD (2 * k + 1) 0).toNat))) ∧
      ∀ k, n ≤ k → t.mem.read k = s.mem.read k

/-- R274: an odd byte count, an aborted stream and more than 65536 bytes are load errors: HALTED with `LOAD_ERROR` and the
number of bytes received (where 21 bits hold it, log entry 11); no instruction executes and `start` has no effect. Of
memory nothing is said (log entry 10); that `fpc` stays is the model's reading (log entry 12). -/
def Obligations.LoadErrorsHalt : Prop :=
  ∀ (s : State) (image : List Byte) (ending : StreamEnd) (ms : List HostMove),
    s.requests = .load image ending :: ms → s.launch = .atReset → s.run = .running →
    (image.length % 2 = 1 ∨ ending = .abort ∨ 65536 < image.length) →
    ∃ t, step s = .next t ∧
      t = { s with run := .halted, cause := .loadError, finfo := t.finfo, mem := t.mem, free := t.free, requests := ms } ∧
      (image.length < 2097152 → t.finfo.toNat = image.length) ∧
      (ms = [] → step t = .fault .halted) ∧
      ∀ ms', ms = .start :: ms' → step t = .next { t with requests := ms' }

/-- R277: `start` launches a loaded core and changes nothing else; it has no effect when HALTED. (`launch` is the model's,
log entry 1.) -/
def Obligations.StartLaunchesTheCore : Prop :=
  (∀ s ms, s.requests = .start :: ms → s.run = .running → s.launch = .loaded →
      step s = .next { s with launch := .started, requests := ms }) ∧
    ∀ s ms, s.requests = .start :: ms → s.run = .halted → step s = .next { s with requests := ms }

/-- The operator's stop (60_exceptions.md section 8), between two steps or during a hold, ends the run with its own cause and
changes nothing else; a held `in` has no further effect; HALTED is left as it is. That it stops a core which is not launched yet
is the model's reading (log entry 19), and the field `hold` it clears is the model's choice (log entry 3). -/
def Obligations.OperatorStopEndsTheRun : Prop :=
  ∀ s ms, s.requests = .stopReq :: ms →
    (s.run = .running →
      step s = .next { s with run := .halted, cause := .operatorStop, hold := none, requests := ms }) ∧
    (s.run = .halted → step s = .next { s with requests := ms })

/-- R258: the script is stored before `start`; what the host may not do (a load or a script after `start`, a start with nothing
loaded) is refused (the refusal, and what counts as a repeated move, are the model's choice, log entries 5 and 20). -/
def Obligations.HostProtocolIsKept : Prop :=
  (∀ s lines ms, s.requests = .script lines :: ms → s.launch ≠ .started →
    step s = .next { s with script := lines, requests := ms }) ∧
    (∀ s lines ms, s.requests = .script lines :: ms → s.launch = .started → step s = .refused .hostProtocol) ∧
    (∀ s image ending ms, s.requests = .load image ending :: ms → s.launch ≠ .atReset →
      step s = .refused .hostProtocol) ∧
    ∀ s ms, s.requests = .start :: ms → s.launch = .atReset → s.run = .running → step s = .refused .hostProtocol

/-- R31: the numeric codes, and the faults being the codes from 8 up. -/
def Obligations.CauseCodes : Prop :=
  [Cause.none, .haltInstr, .retEmpty, .inputEof, .operatorStop].map Cause.code = [0, 1, 2, 3, 4] ∧
    [Cause.unknownOpcode, .invalidNumber, .stackUnderflow, .badWriteTarget, .divideByZero, .unmappedAccess, .stackOverflow,
      .loadError].map Cause.code = [8, 9, 10, 11, 12, 13, 14, 15] ∧
    ∀ c : Cause, (c.isFault = true ↔ 8 ≤ c.code) ∧ c.code ∉ [5, 6, 7] ∧ (c.verdict = .failure ↔ c.isFault = true)

/-! ## The whole machine -/

/-- R22: an instruction changes a register only through its own write target; the console's `hack` is the one exception. -/
def Obligations.OnlyTheTargetRegisterChanges : Prop :=
  ∀ (i : Instr) (s t : State) (r : R3), exec i s = .next t → t.reg r ≠ s.reg r →
    (i.hasTarget = true ∧ i.operands.head? = some (.reg r)) ∨ consoleCanRun i s

/-- R61, R64: an instruction changes a memory cell only if it is `wmem` and the cell is the one its first operand names; the
console's `hack` is the one exception. -/
def Obligations.OnlyWmemChangesMemory : Prop :=
  ∀ (i : Instr) (s t : State) (addr : Nat), exec i s = .next t → t.mem.read addr ≠ s.mem.read addr →
    (∃ a b v, i = .wmem a b ∧ s.val a = .ok v ∧ v.toNat = addr) ∨ consoleCanRun i s

/-- R27, R29: only `push`, `pop`, `call`, `ret` change the stack, by one entry at the top. -/
def Obligations.OnlyStackInstructionsMoveTheStack : Prop :=
  ∀ (i : Instr) (s t : State), exec i s = .next t →
    t.stack = s.stack ∨
      ((∃ v, t.stack = v :: s.stack) ∧ ∃ a, i = .push a ∨ i = .call a) ∨
      ((∃ v, s.stack = v :: t.stack) ∧ (i = .ret ∨ ∃ a, i = .pop a))

/-- R35, R203: `OUT` and `DIAG` only grow, at their end, under every step but a reset; one instruction adds at most one
character, and only `out` and `in` add one. -/
def Obligations.OutputIsAppendOnly : Prop :=
  (∀ s t : State, step s = .next t → (∀ ms, s.requests ≠ .rst :: ms) → s.out <+: t.out ∧ s.diag <+: t.diag) ∧
    ∀ (i : Instr) (s t : State), exec i s = .next t →
      t.out = s.out ∨ ((∃ c, t.out = s.out ++ [c]) ∧ ∃ a, i = .out a ∨ i = .input a)

/-- R34: the scripted input is drained from its front, by `in` alone and by at most one character, never rewound. -/
def Obligations.ScriptIsDrainedInOrder : Prop :=
  ∀ (i : Instr) (s t : State), exec i s = .next t →
    ((∀ a, i ≠ .input a) → t.cur = s.cur ∧ t.script = s.script) ∧
    (t.cur ++ t.script.flatten = s.cur ++ s.script.flatten ∨
      ∃ c, s.cur ++ s.script.flatten = c :: (t.cur ++ t.script.flatten))

/-- R33, R41: a program cannot observe the trace flag or the fault registers: two states that differ in them alone run alike
in everything else a program or `OUT` can show. -/
def Obligations.ControlStateIsInvisible : Prop :=
  ∀ (i : Instr) (s t t' : State) (b : Bool) (f : W16) (g : Code),
    exec i s = .next t → exec i { s with trace := b, fpc := f, finfo := g } = .next t' →
    t'.regs = t.regs ∧ t'.pc = t.pc ∧ t'.stack = t.stack ∧ t'.mem = t.mem ∧ t'.run = t.run ∧ t'.cause = t.cause ∧
      t'.cur = t.cur ∧ t'.script = t.script ∧ t'.out = t.out ∧ t'.hold = t.hold ∧ t'.live = t.live

/-- The source's property S5 (R190, R191): `call` followed at once by `ret` comes back to the instruction after the `call`,
the stack as it was. -/
def Obligations.CallThenRetComesBack : Prop :=
  ∀ (s t u : State) (a : Operand), exec (.call a) s = .next t → t.run = .running → exec .ret t = .next u →
    u.pc = s.pc + 2 ∧ u.stack = s.stack ∧ u.run = .running ∧ u.regs = s.regs ∧ u.mem = s.mem

/-- R168: `not` twice restores the value, whichever register it goes through. -/
def Obligations.NotIsSelfInverse : Prop :=
  ∀ (s t u : State) (i j : R3) (b : Operand) (x : V15),
    s.val b = .ok x → exec (.not (.reg i) b) s = .next t → exec (.not (.reg j) (.reg i)) t = .next u → u.reg j = x

/-- R74: the word a `wmem` stores is what the very next step fetches: shown for every one-word instruction. -/
def Obligations.StoredInstructionIsFetchedNext : Prop :=
  ∀ (s t : State) (a b : Operand) (addr v : V15) (i : Instr),
    s.val a = .ok addr → s.val b = .ok v → encode i = [v.setWidth 16] →
    exec (.wmem a b) s = .next t → t.ready → t.pc.toNat = addr.toNat → step t = exec i t

/-- The invariant holds right after reset (R42). (The fields `launch`, `hold` and `params` are the model's, log entries 1, 3
and 6.) -/
def Obligations.InvariantAtReset : Prop :=
  State.reset.Inv

/-- Every step, the core's or the host's, from every state of the invariant (reached or not), keeps it: the pc in `[0, 32768]`
(R26), memory canonical (R62), `cause = NONE` exactly while RUNNING (R31), the stack within its capacity (R28), a holding
`in` consistent (R212), nothing run before `start` (R270). (The fields `launch`, `hold` and `params` are the model's, log
entries 1, 3 and 6.) -/
def Obligations.StepKeepsInvariant : Prop :=
  ∀ s t : State, s.Inv → step s = .next t → t.Inv
end

