-- ==== Sys2Proof/Laws/State.lean ====
section
/-! SUPPORT. One lemma per field per update of the state, true by rfl, so that no later proof unfolds a record update; and the
laws of reading a register after a write. -/

namespace Sys2Proof.Machine

/-! `State.setReg`, field by field -/

@[simp] theorem State.setReg_regs (s : State) (i : R3) (v : V15) : (s.setReg i v).regs = s.regs.set i v := rfl
@[simp] theorem State.setReg_pc (s : State) (i : R3) (v : V15) : (s.setReg i v).pc = s.pc := rfl
@[simp] theorem State.setReg_stack (s : State) (i : R3) (v : V15) : (s.setReg i v).stack = s.stack := rfl
@[simp] theorem State.setReg_mem (s : State) (i : R3) (v : V15) : (s.setReg i v).mem = s.mem := rfl
@[simp] theorem State.setReg_run (s : State) (i : R3) (v : V15) : (s.setReg i v).run = s.run := rfl
@[simp] theorem State.setReg_cause (s : State) (i : R3) (v : V15) : (s.setReg i v).cause = s.cause := rfl
@[simp] theorem State.setReg_fpc (s : State) (i : R3) (v : V15) : (s.setReg i v).fpc = s.fpc := rfl
@[simp] theorem State.setReg_finfo (s : State) (i : R3) (v : V15) : (s.setReg i v).finfo = s.finfo := rfl
@[simp] theorem State.setReg_trace (s : State) (i : R3) (v : V15) : (s.setReg i v).trace = s.trace := rfl
@[simp] theorem State.setReg_cur (s : State) (i : R3) (v : V15) : (s.setReg i v).cur = s.cur := rfl
@[simp] theorem State.setReg_script (s : State) (i : R3) (v : V15) : (s.setReg i v).script = s.script := rfl
@[simp] theorem State.setReg_out (s : State) (i : R3) (v : V15) : (s.setReg i v).out = s.out := rfl
@[simp] theorem State.setReg_diag (s : State) (i : R3) (v : V15) : (s.setReg i v).diag = s.diag := rfl
@[simp] theorem State.setReg_launch (s : State) (i : R3) (v : V15) : (s.setReg i v).launch = s.launch := rfl
@[simp] theorem State.setReg_hold (s : State) (i : R3) (v : V15) : (s.setReg i v).hold = s.hold := rfl
@[simp] theorem State.setReg_live (s : State) (i : R3) (v : V15) : (s.setReg i v).live = s.live := rfl
@[simp] theorem State.setReg_requests (s : State) (i : R3) (v : V15) : (s.setReg i v).requests = s.requests := rfl
@[simp] theorem State.setReg_params (s : State) (i : R3) (v : V15) : (s.setReg i v).params = s.params := rfl
@[simp] theorem State.setReg_free (s : State) (i : R3) (v : V15) : (s.setReg i v).free = s.free := rfl

/-! `State.memWrite`, field by field -/

@[simp] theorem State.memWrite_regs (s : State) (a : A15) (w : W16) : (s.memWrite a w).regs = s.regs := rfl
@[simp] theorem State.memWrite_pc (s : State) (a : A15) (w : W16) : (s.memWrite a w).pc = s.pc := rfl
@[simp] theorem State.memWrite_stack (s : State) (a : A15) (w : W16) : (s.memWrite a w).stack = s.stack := rfl
@[simp] theorem State.memWrite_mem (s : State) (a : A15) (w : W16) : (s.memWrite a w).mem = s.mem.write a w := rfl
@[simp] theorem State.memWrite_run (s : State) (a : A15) (w : W16) : (s.memWrite a w).run = s.run := rfl
@[simp] theorem State.memWrite_cause (s : State) (a : A15) (w : W16) : (s.memWrite a w).cause = s.cause := rfl
@[simp] theorem State.memWrite_fpc (s : State) (a : A15) (w : W16) : (s.memWrite a w).fpc = s.fpc := rfl
@[simp] theorem State.memWrite_finfo (s : State) (a : A15) (w : W16) : (s.memWrite a w).finfo = s.finfo := rfl
@[simp] theorem State.memWrite_trace (s : State) (a : A15) (w : W16) : (s.memWrite a w).trace = s.trace := rfl
@[simp] theorem State.memWrite_cur (s : State) (a : A15) (w : W16) : (s.memWrite a w).cur = s.cur := rfl
@[simp] theorem State.memWrite_script (s : State) (a : A15) (w : W16) : (s.memWrite a w).script = s.script := rfl
@[simp] theorem State.memWrite_out (s : State) (a : A15) (w : W16) : (s.memWrite a w).out = s.out := rfl
@[simp] theorem State.memWrite_diag (s : State) (a : A15) (w : W16) : (s.memWrite a w).diag = s.diag := rfl
@[simp] theorem State.memWrite_launch (s : State) (a : A15) (w : W16) : (s.memWrite a w).launch = s.launch := rfl
@[simp] theorem State.memWrite_hold (s : State) (a : A15) (w : W16) : (s.memWrite a w).hold = s.hold := rfl
@[simp] theorem State.memWrite_live (s : State) (a : A15) (w : W16) : (s.memWrite a w).live = s.live := rfl
@[simp] theorem State.memWrite_requests (s : State) (a : A15) (w : W16) : (s.memWrite a w).requests = s.requests := rfl
@[simp] theorem State.memWrite_params (s : State) (a : A15) (w : W16) : (s.memWrite a w).params = s.params := rfl
@[simp] theorem State.memWrite_free (s : State) (a : A15) (w : W16) : (s.memWrite a w).free = s.free := rfl

/-! `State.emit`, field by field -/

@[simp] theorem State.emit_regs (s : State) (c : V15) : (s.emit c).regs = s.regs := rfl
@[simp] theorem State.emit_pc (s : State) (c : V15) : (s.emit c).pc = s.pc := rfl
@[simp] theorem State.emit_stack (s : State) (c : V15) : (s.emit c).stack = s.stack := rfl
@[simp] theorem State.emit_mem (s : State) (c : V15) : (s.emit c).mem = s.mem := rfl
@[simp] theorem State.emit_run (s : State) (c : V15) : (s.emit c).run = s.run := rfl
@[simp] theorem State.emit_cause (s : State) (c : V15) : (s.emit c).cause = s.cause := rfl
@[simp] theorem State.emit_fpc (s : State) (c : V15) : (s.emit c).fpc = s.fpc := rfl
@[simp] theorem State.emit_finfo (s : State) (c : V15) : (s.emit c).finfo = s.finfo := rfl
@[simp] theorem State.emit_trace (s : State) (c : V15) : (s.emit c).trace = s.trace := rfl
@[simp] theorem State.emit_cur (s : State) (c : V15) : (s.emit c).cur = s.cur := rfl
@[simp] theorem State.emit_script (s : State) (c : V15) : (s.emit c).script = s.script := rfl
@[simp] theorem State.emit_out (s : State) (c : V15) : (s.emit c).out = s.out ++ [c] := rfl
@[simp] theorem State.emit_diag (s : State) (c : V15) : (s.emit c).diag = s.diag := rfl
@[simp] theorem State.emit_launch (s : State) (c : V15) : (s.emit c).launch = s.launch := rfl
@[simp] theorem State.emit_hold (s : State) (c : V15) : (s.emit c).hold = s.hold := rfl
@[simp] theorem State.emit_live (s : State) (c : V15) : (s.emit c).live = s.live := rfl
@[simp] theorem State.emit_requests (s : State) (c : V15) : (s.emit c).requests = s.requests := rfl
@[simp] theorem State.emit_params (s : State) (c : V15) : (s.emit c).params = s.params := rfl
@[simp] theorem State.emit_free (s : State) (c : V15) : (s.emit c).free = s.free := rfl

/-! `State.jump`, field by field -/

@[simp] theorem State.jump_regs (s : State) (t : V15) : (s.jump t).regs = s.regs := rfl
@[simp] theorem State.jump_pc (s : State) (t : V15) : (s.jump t).pc = t.setWidth 16 := rfl
@[simp] theorem State.jump_stack (s : State) (t : V15) : (s.jump t).stack = s.stack := rfl
@[simp] theorem State.jump_mem (s : State) (t : V15) : (s.jump t).mem = s.mem := rfl
@[simp] theorem State.jump_run (s : State) (t : V15) : (s.jump t).run = s.run := rfl
@[simp] theorem State.jump_cause (s : State) (t : V15) : (s.jump t).cause = s.cause := rfl
@[simp] theorem State.jump_fpc (s : State) (t : V15) : (s.jump t).fpc = s.fpc := rfl
@[simp] theorem State.jump_finfo (s : State) (t : V15) : (s.jump t).finfo = s.finfo := rfl
@[simp] theorem State.jump_trace (s : State) (t : V15) : (s.jump t).trace = s.trace := rfl
@[simp] theorem State.jump_cur (s : State) (t : V15) : (s.jump t).cur = s.cur := rfl
@[simp] theorem State.jump_script (s : State) (t : V15) : (s.jump t).script = s.script := rfl
@[simp] theorem State.jump_out (s : State) (t : V15) : (s.jump t).out = s.out := rfl
@[simp] theorem State.jump_diag (s : State) (t : V15) : (s.jump t).diag = s.diag := rfl
@[simp] theorem State.jump_launch (s : State) (t : V15) : (s.jump t).launch = s.launch := rfl
@[simp] theorem State.jump_hold (s : State) (t : V15) : (s.jump t).hold = s.hold := rfl
@[simp] theorem State.jump_live (s : State) (t : V15) : (s.jump t).live = s.live := rfl
@[simp] theorem State.jump_requests (s : State) (t : V15) : (s.jump t).requests = s.requests := rfl
@[simp] theorem State.jump_params (s : State) (t : V15) : (s.jump t).params = s.params := rfl
@[simp] theorem State.jump_free (s : State) (t : V15) : (s.jump t).free = s.free := rfl

/-! `State.raise`, field by field -/

@[simp] theorem State.raise_regs (s : State) (e : Trap) (ipc : W16) : (s.raise e ipc).regs = s.regs := rfl
@[simp] theorem State.raise_pc (s : State) (e : Trap) (ipc : W16) : (s.raise e ipc).pc = s.pc := rfl
@[simp] theorem State.raise_stack (s : State) (e : Trap) (ipc : W16) : (s.raise e ipc).stack = s.stack := rfl
@[simp] theorem State.raise_mem (s : State) (e : Trap) (ipc : W16) : (s.raise e ipc).mem = s.mem := rfl
@[simp] theorem State.raise_run (s : State) (e : Trap) (ipc : W16) : (s.raise e ipc).run = .halted := rfl
@[simp] theorem State.raise_cause (s : State) (e : Trap) (ipc : W16) : (s.raise e ipc).cause = e.cause := rfl
@[simp] theorem State.raise_fpc (s : State) (e : Trap) (ipc : W16) : (s.raise e ipc).fpc = ipc := rfl
@[simp] theorem State.raise_finfo (s : State) (e : Trap) (ipc : W16) : (s.raise e ipc).finfo = e.info := rfl
@[simp] theorem State.raise_trace (s : State) (e : Trap) (ipc : W16) : (s.raise e ipc).trace = s.trace := rfl
@[simp] theorem State.raise_cur (s : State) (e : Trap) (ipc : W16) : (s.raise e ipc).cur = s.cur := rfl
@[simp] theorem State.raise_script (s : State) (e : Trap) (ipc : W16) : (s.raise e ipc).script = s.script := rfl
@[simp] theorem State.raise_out (s : State) (e : Trap) (ipc : W16) : (s.raise e ipc).out = s.out := rfl
@[simp] theorem State.raise_diag (s : State) (e : Trap) (ipc : W16) : (s.raise e ipc).diag = s.diag := rfl
@[simp] theorem State.raise_launch (s : State) (e : Trap) (ipc : W16) : (s.raise e ipc).launch = s.launch := rfl
@[simp] theorem State.raise_hold (s : State) (e : Trap) (ipc : W16) : (s.raise e ipc).hold = s.hold := rfl
@[simp] theorem State.raise_live (s : State) (e : Trap) (ipc : W16) : (s.raise e ipc).live = s.live := rfl
@[simp] theorem State.raise_requests (s : State) (e : Trap) (ipc : W16) : (s.raise e ipc).requests = s.requests := rfl
@[simp] theorem State.raise_params (s : State) (e : Trap) (ipc : W16) : (s.raise e ipc).params = s.params := rfl
@[simp] theorem State.raise_free (s : State) (e : Trap) (ipc : W16) : (s.raise e ipc).free = s.free := rfl

/-! `State.stop`, field by field -/

@[simp] theorem State.stop_regs (s : State) (c : Cause) : (s.stop c).regs = s.regs := rfl
@[simp] theorem State.stop_pc (s : State) (c : Cause) : (s.stop c).pc = s.pc := rfl
@[simp] theorem State.stop_stack (s : State) (c : Cause) : (s.stop c).stack = s.stack := rfl
@[simp] theorem State.stop_mem (s : State) (c : Cause) : (s.stop c).mem = s.mem := rfl
@[simp] theorem State.stop_run (s : State) (c : Cause) : (s.stop c).run = .halted := rfl
@[simp] theorem State.stop_cause (s : State) (c : Cause) : (s.stop c).cause = c := rfl
@[simp] theorem State.stop_fpc (s : State) (c : Cause) : (s.stop c).fpc = s.fpc := rfl
@[simp] theorem State.stop_finfo (s : State) (c : Cause) : (s.stop c).finfo = s.finfo := rfl
@[simp] theorem State.stop_trace (s : State) (c : Cause) : (s.stop c).trace = s.trace := rfl
@[simp] theorem State.stop_cur (s : State) (c : Cause) : (s.stop c).cur = s.cur := rfl
@[simp] theorem State.stop_script (s : State) (c : Cause) : (s.stop c).script = s.script := rfl
@[simp] theorem State.stop_out (s : State) (c : Cause) : (s.stop c).out = s.out := rfl
@[simp] theorem State.stop_diag (s : State) (c : Cause) : (s.stop c).diag = s.diag := rfl
@[simp] theorem State.stop_launch (s : State) (c : Cause) : (s.stop c).launch = s.launch := rfl
@[simp] theorem State.stop_hold (s : State) (c : Cause) : (s.stop c).hold = s.hold := rfl
@[simp] theorem State.stop_live (s : State) (c : Cause) : (s.stop c).live = s.live := rfl
@[simp] theorem State.stop_requests (s : State) (c : Cause) : (s.stop c).requests = s.requests := rfl
@[simp] theorem State.stop_params (s : State) (c : Cause) : (s.stop c).params = s.params := rfl
@[simp] theorem State.stop_free (s : State) (c : Cause) : (s.stop c).free = s.free := rfl

/-! `State.advance`, field by field -/

@[simp] theorem State.advance_regs (s : State) (n : Nat) : (s.advance n).regs = s.regs := rfl
@[simp] theorem State.advance_pc (s : State) (n : Nat) : (s.advance n).pc = s.pc + BitVec.ofNat 16 (1 + n) := rfl
@[simp] theorem State.advance_stack (s : State) (n : Nat) : (s.advance n).stack = s.stack := rfl
@[simp] theorem State.advance_mem (s : State) (n : Nat) : (s.advance n).mem = s.mem := rfl
@[simp] theorem State.advance_run (s : State) (n : Nat) : (s.advance n).run = s.run := rfl
@[simp] theorem State.advance_cause (s : State) (n : Nat) : (s.advance n).cause = s.cause := rfl
@[simp] theorem State.advance_fpc (s : State) (n : Nat) : (s.advance n).fpc = s.fpc := rfl
@[simp] theorem State.advance_finfo (s : State) (n : Nat) : (s.advance n).finfo = s.finfo := rfl
@[simp] theorem State.advance_trace (s : State) (n : Nat) : (s.advance n).trace = s.trace := rfl
@[simp] theorem State.advance_cur (s : State) (n : Nat) : (s.advance n).cur = s.cur := rfl
@[simp] theorem State.advance_script (s : State) (n : Nat) : (s.advance n).script = s.script := rfl
@[simp] theorem State.advance_out (s : State) (n : Nat) : (s.advance n).out = s.out := rfl
@[simp] theorem State.advance_diag (s : State) (n : Nat) : (s.advance n).diag = s.diag := rfl
@[simp] theorem State.advance_launch (s : State) (n : Nat) : (s.advance n).launch = s.launch := rfl
@[simp] theorem State.advance_hold (s : State) (n : Nat) : (s.advance n).hold = s.hold := rfl
@[simp] theorem State.advance_live (s : State) (n : Nat) : (s.advance n).live = s.live := rfl
@[simp] theorem State.advance_requests (s : State) (n : Nat) : (s.advance n).requests = s.requests := rfl
@[simp] theorem State.advance_params (s : State) (n : Nat) : (s.advance n).params = s.params := rfl
@[simp] theorem State.advance_free (s : State) (n : Nat) : (s.advance n).free = s.free := rfl

/-! `State.dump`, field by field -/

@[simp] theorem State.dump_regs (s : State) : (s.dump).regs = s.regs := rfl
@[simp] theorem State.dump_pc (s : State) : (s.dump).pc = s.pc := rfl
@[simp] theorem State.dump_stack (s : State) : (s.dump).stack = s.stack := rfl
@[simp] theorem State.dump_mem (s : State) : (s.dump).mem = s.mem := rfl
@[simp] theorem State.dump_run (s : State) : (s.dump).run = s.run := rfl
@[simp] theorem State.dump_cause (s : State) : (s.dump).cause = s.cause := rfl
@[simp] theorem State.dump_fpc (s : State) : (s.dump).fpc = s.fpc := rfl
@[simp] theorem State.dump_finfo (s : State) : (s.dump).finfo = s.finfo := rfl
@[simp] theorem State.dump_trace (s : State) : (s.dump).trace = s.trace := rfl
@[simp] theorem State.dump_cur (s : State) : (s.dump).cur = s.cur := rfl
@[simp] theorem State.dump_script (s : State) : (s.dump).script = s.script := rfl
@[simp] theorem State.dump_out (s : State) : (s.dump).out = s.out := rfl
@[simp] theorem State.dump_diag (s : State) : (s.dump).diag = s.diag ++ [.dump s.regs s.stack] := rfl
@[simp] theorem State.dump_launch (s : State) : (s.dump).launch = s.launch := rfl
@[simp] theorem State.dump_hold (s : State) : (s.dump).hold = s.hold := rfl
@[simp] theorem State.dump_live (s : State) : (s.dump).live = s.live := rfl
@[simp] theorem State.dump_requests (s : State) : (s.dump).requests = s.requests := rfl
@[simp] theorem State.dump_params (s : State) : (s.dump).params = s.params := rfl
@[simp] theorem State.dump_free (s : State) : (s.dump).free = s.free := rfl

/-! `State.resetBy`, field by field -/

@[simp] theorem State.resetBy_regs (s : State) : (s.resetBy).regs = State.reset.regs := rfl
@[simp] theorem State.resetBy_pc (s : State) : (s.resetBy).pc = State.reset.pc := rfl
@[simp] theorem State.resetBy_stack (s : State) : (s.resetBy).stack = State.reset.stack := rfl
@[simp] theorem State.resetBy_mem (s : State) : (s.resetBy).mem = State.reset.mem := rfl
@[simp] theorem State.resetBy_run (s : State) : (s.resetBy).run = State.reset.run := rfl
@[simp] theorem State.resetBy_cause (s : State) : (s.resetBy).cause = State.reset.cause := rfl
@[simp] theorem State.resetBy_fpc (s : State) : (s.resetBy).fpc = State.reset.fpc := rfl
@[simp] theorem State.resetBy_finfo (s : State) : (s.resetBy).finfo = State.reset.finfo := rfl
@[simp] theorem State.resetBy_trace (s : State) : (s.resetBy).trace = State.reset.trace := rfl
@[simp] theorem State.resetBy_cur (s : State) : (s.resetBy).cur = State.reset.cur := rfl
@[simp] theorem State.resetBy_script (s : State) : (s.resetBy).script = State.reset.script := rfl
@[simp] theorem State.resetBy_out (s : State) : (s.resetBy).out = State.reset.out := rfl
@[simp] theorem State.resetBy_diag (s : State) : (s.resetBy).diag = State.reset.diag := rfl
@[simp] theorem State.resetBy_launch (s : State) : (s.resetBy).launch = State.reset.launch := rfl
@[simp] theorem State.resetBy_hold (s : State) : (s.resetBy).hold = State.reset.hold := rfl
@[simp] theorem State.resetBy_live (s : State) : (s.resetBy).live = s.live := rfl
@[simp] theorem State.resetBy_requests (s : State) : (s.resetBy).requests = s.requests := rfl
@[simp] theorem State.resetBy_params (s : State) : (s.resetBy).params = s.params := rfl
@[simp] theorem State.resetBy_free (s : State) : (s.resetBy).free = s.free := rfl

/-! `State.traceStep`, field by field (`diag` and `free` depend on the trace flag) -/

@[simp] theorem State.traceStep_regs (s : State) : (s.traceStep).regs = s.regs := by
  unfold State.traceStep; split <;> rfl
@[simp] theorem State.traceStep_pc (s : State) : (s.traceStep).pc = s.pc := by
  unfold State.traceStep; split <;> rfl
@[simp] theorem State.traceStep_stack (s : State) : (s.traceStep).stack = s.stack := by
  unfold State.traceStep; split <;> rfl
@[simp] theorem State.traceStep_mem (s : State) : (s.traceStep).mem = s.mem := by
  unfold State.traceStep; split <;> rfl
@[simp] theorem State.traceStep_run (s : State) : (s.traceStep).run = s.run := by
  unfold State.traceStep; split <;> rfl
@[simp] theorem State.traceStep_cause (s : State) : (s.traceStep).cause = s.cause := by
  unfold State.traceStep; split <;> rfl
@[simp] theorem State.traceStep_fpc (s : State) : (s.traceStep).fpc = s.fpc := by
  unfold State.traceStep; split <;> rfl
@[simp] theorem State.traceStep_finfo (s : State) : (s.traceStep).finfo = s.finfo := by
  unfold State.traceStep; split <;> rfl
@[simp] theorem State.traceStep_trace (s : State) : (s.traceStep).trace = s.trace := by
  unfold State.traceStep; split <;> rfl
@[simp] theorem State.traceStep_cur (s : State) : (s.traceStep).cur = s.cur := by
  unfold State.traceStep; split <;> rfl
@[simp] theorem State.traceStep_script (s : State) : (s.traceStep).script = s.script := by
  unfold State.traceStep; split <;> rfl
@[simp] theorem State.traceStep_out (s : State) : (s.traceStep).out = s.out := by
  unfold State.traceStep; split <;> rfl
@[simp] theorem State.traceStep_launch (s : State) : (s.traceStep).launch = s.launch := by
  unfold State.traceStep; split <;> rfl
@[simp] theorem State.traceStep_hold (s : State) : (s.traceStep).hold = s.hold := by
  unfold State.traceStep; split <;> rfl
@[simp] theorem State.traceStep_live (s : State) : (s.traceStep).live = s.live := by
  unfold State.traceStep; split <;> rfl
@[simp] theorem State.traceStep_requests (s : State) : (s.traceStep).requests = s.requests := by
  unfold State.traceStep; split <;> rfl
@[simp] theorem State.traceStep_params (s : State) : (s.traceStep).params = s.params := by
  unfold State.traceStep; split <;> rfl

/-! `State.issue`, field by field (`diag` and `free` depend on the trace flag) -/

@[simp] theorem State.issue_regs (s : State) (n : Nat) : (s.issue n).regs = s.regs := by
  simp [State.issue]
@[simp] theorem State.issue_pc (s : State) (n : Nat) : (s.issue n).pc = s.pc + BitVec.ofNat 16 (1 + n) := by
  simp [State.issue]
@[simp] theorem State.issue_stack (s : State) (n : Nat) : (s.issue n).stack = s.stack := by
  simp [State.issue]
@[simp] theorem State.issue_mem (s : State) (n : Nat) : (s.issue n).mem = s.mem := by
  simp [State.issue]
@[simp] theorem State.issue_run (s : State) (n : Nat) : (s.issue n).run = s.run := by
  simp [State.issue]
@[simp] theorem State.issue_cause (s : State) (n : Nat) : (s.issue n).cause = s.cause := by
  simp [State.issue]
@[simp] theorem State.issue_fpc (s : State) (n : Nat) : (s.issue n).fpc = s.fpc := by
  simp [State.issue]
@[simp] theorem State.issue_finfo (s : State) (n : Nat) : (s.issue n).finfo = s.finfo := by
  simp [State.issue]
@[simp] theorem State.issue_trace (s : State) (n : Nat) : (s.issue n).trace = s.trace := by
  simp [State.issue]
@[simp] theorem State.issue_cur (s : State) (n : Nat) : (s.issue n).cur = s.cur := by
  simp [State.issue]
@[simp] theorem State.issue_script (s : State) (n : Nat) : (s.issue n).script = s.script := by
  simp [State.issue]
@[simp] theorem State.issue_out (s : State) (n : Nat) : (s.issue n).out = s.out := by
  simp [State.issue]
@[simp] theorem State.issue_launch (s : State) (n : Nat) : (s.issue n).launch = s.launch := by
  simp [State.issue]
@[simp] theorem State.issue_hold (s : State) (n : Nat) : (s.issue n).hold = s.hold := by
  simp [State.issue]
@[simp] theorem State.issue_live (s : State) (n : Nat) : (s.issue n).live = s.live := by
  simp [State.issue]
@[simp] theorem State.issue_requests (s : State) (n : Nat) : (s.issue n).requests = s.requests := by
  simp [State.issue]
@[simp] theorem State.issue_params (s : State) (n : Nat) : (s.issue n).params = s.params := by
  simp [State.issue]

/-! Registers -/

@[simp] theorem State.reg_setReg_same (s : State) (i : R3) (v : V15) : (s.setReg i v).reg i = v := by
  simp [State.reg]

theorem State.reg_setReg_other (s : State) {i j : R3} (v : V15) (h : j ≠ i) : (s.setReg i v).reg j = s.reg j := by
  have h' : (i : Nat) ≠ (j : Nat) := fun e => h (Fin.ext e.symm)
  simp [State.reg, h']

@[simp] theorem State.reg_memWrite (s : State) (a : A15) (w : W16) (i : R3) : (s.memWrite a w).reg i = s.reg i := rfl

@[simp] theorem State.reg_advance (s : State) (n : Nat) (i : R3) : (s.advance n).reg i = s.reg i := rfl

@[simp] theorem State.reg_raise (s : State) (e : Trap) (ipc : W16) (i : R3) : (s.raise e ipc).reg i = s.reg i := rfl

@[simp] theorem State.reg_stop (s : State) (c : Cause) (i : R3) : (s.stop c).reg i = s.reg i := rfl

@[simp] theorem State.reg_emit (s : State) (c : V15) (i : R3) : (s.emit c).reg i = s.reg i := rfl

@[simp] theorem State.reg_jump (s : State) (t : V15) (i : R3) : (s.jump t).reg i = s.reg i := rfl

@[simp] theorem State.reg_issue (s : State) (n : Nat) (i : R3) : (s.issue n).reg i = s.reg i := by
  simp [State.reg]

/-- Phase D reads the same operand values after phases F3 and T as before them. -/
@[simp] theorem State.val_issue (s : State) (n : Nat) (o : Operand) : (s.issue n).val o = s.val o := by
  cases o <;> simp [State.val]

/-- Phase T does nothing while `trace = 0` (R33). -/
theorem State.traceStep_off {s : State} (h : s.trace = false) : s.traceStep = s := by
  simp [State.traceStep, h]

/-- Phase T while `trace = 1` (R33): one record, and the next free value. -/
theorem State.traceStep_on {s : State} (h : s.trace = true) :
    s.traceStep = { s with diag := s.diag ++ [.trace (Config.traceContent s.free)], free := s.free + 1 } := by
  simp [State.traceStep, h]

/-- Phases F3 and T commute: the record does not depend on the pc. -/
theorem State.issue_eq (n : Nat) (s : State) :
    s.issue n = { s.traceStep with pc := s.pc + BitVec.ofNat 16 (1 + n) } := by
  unfold State.issue State.traceStep
  split <;> split <;> simp_all [State.advance]

end Sys2Proof.Machine
end

