-- ==== Sys2Proof/Laws/Memory.lean ====
section
/-! SUPPORT. The laws of memory: reading after writing, and the canonical form that every operation keeps. -/

namespace Sys2Proof.Machine

/-! ## Reading after writing (20_memory.md R64, R71) -/

theorem Memory.read_insert (m : Memory) (a b : Nat) (w : W16) :
    (m.insert a w).read b = if b = a then some w else m.read b := by
  induction m with
  | nil => simp [Memory.insert, Memory.read, eq_comm]
  | cons e m ih =>
    obtain ⟨k, v⟩ := e
    unfold Memory.insert
    split
    · simp [Memory.read, eq_comm]
    · split
      · subst_vars
        by_cases h : b = k <;> simp [Memory.read, h, eq_comm]
      · rw [Memory.read, ih]
        by_cases hb : b = a
        · subst hb; simp [show k ≠ b by omega]
        · simp [Memory.read, hb]

@[simp] theorem Memory.read_write_same (m : Memory) (a : A15) (w : W16) : (m.write a w).read a.toNat = some w := by
  simp [Memory.write, Memory.read_insert]

theorem Memory.read_write_other (m : Memory) (a : A15) (w : W16) {b : Nat} (h : b ≠ a.toNat) :
    (m.write a w).read b = m.read b := by
  simp [Memory.write, Memory.read_insert, h]

/-! ## The canonical form (log entry 16) -/

theorem Memory.wfFrom_weaken {lo lo' : Nat} {m : Memory} (h : m.wfFrom lo = true) (hl : lo' ≤ lo) :
    m.wfFrom lo' = true := by
  cases m with
  | nil => rfl
  | cons e m =>
    obtain ⟨k, v⟩ := e
    simp only [Memory.wfFrom, Bool.and_eq_true, decide_eq_true_eq] at h ⊢
    exact ⟨⟨by omega, h.1.2⟩, h.2⟩

theorem Memory.wfFrom_insert {lo a : Nat} {m : Memory} (w : W16) (h : m.wfFrom lo = true) (hlo : lo ≤ a)
    (ha : a < Config.memWords) : (m.insert a w).wfFrom lo = true := by
  induction m generalizing lo with
  | nil => simp [Memory.insert, Memory.wfFrom, hlo, ha]
  | cons e m ih =>
    obtain ⟨k, v⟩ := e
    simp only [Memory.wfFrom, Bool.and_eq_true, decide_eq_true_eq] at h
    unfold Memory.insert
    split
    · simp only [Memory.wfFrom, Bool.and_eq_true, decide_eq_true_eq]
      exact ⟨⟨hlo, ha⟩, ⟨by omega, h.1.2⟩, h.2⟩
    · split
      · simp only [Memory.wfFrom, Bool.and_eq_true, decide_eq_true_eq]
        refine ⟨⟨hlo, ha⟩, ?_⟩
        subst_vars; exact h.2
      · simp only [Memory.wfFrom, Bool.and_eq_true, decide_eq_true_eq]
        exact ⟨h.1, ih h.2 (by omega)⟩

/-- An insertion below 32768 keeps the canonical form. -/
theorem Memory.wf_insert {m : Memory} {a : Nat} (w : W16) (h : m.wf = true) (ha : a < Config.memWords) :
    (m.insert a w).wf = true :=
  Memory.wfFrom_insert w h (Nat.zero_le a) ha

theorem Memory.wf_write {m : Memory} (a : A15) (w : W16) (h : m.wf = true) : (m.write a w).wf = true :=
  Memory.wf_insert w h (by have := a.isLt; simp only [Config.memWords]; omega)

theorem Memory.wf_writeCells {m : Memory} (cs : List (A15 × W16)) (h : m.wf = true) : (m.writeCells cs).wf = true := by
  induction cs generalizing m with
  | nil => exact h
  | cons c cs ih => exact ih (Memory.wf_write c.1 c.2 h)

theorem Memory.wf_writeWords {m : Memory} (ws : List W16) (addr : Nat) (h : m.wf = true) :
    (m.writeWords addr ws).wf = true := by
  induction ws generalizing m addr with
  | nil => exact h
  | cons w ws ih =>
    refine ih (addr + 1) ?_
    split
    · rename_i ha; exact Memory.wf_insert w h ha
    · exact h

theorem Memory.wf_reset : State.reset.mem.wf = true := rfl

/-- Only addresses below 32768 are written in a canonical memory. -/
theorem Memory.lt_of_read {lo : Nat} {m : Memory} {a : Nat} {w : W16} (h : m.wfFrom lo = true)
    (hr : m.read a = some w) : lo ≤ a ∧ a < Config.memWords := by
  induction m generalizing lo with
  | nil => simp [Memory.read] at hr
  | cons e m ih =>
    obtain ⟨k, v⟩ := e
    simp only [Memory.wfFrom, Bool.and_eq_true, decide_eq_true_eq] at h
    unfold Memory.read at hr
    split at hr
    · subst_vars; exact h.1
    · have := ih h.2 hr
      omega

/-- Equal memories are equal data: two canonical memories that read alike are the same list. -/
theorem Memory.ext_of_wf {lo : Nat} {m n : Memory} (hm : m.wfFrom lo = true) (hn : n.wfFrom lo = true)
    (h : ∀ a, m.read a = n.read a) : m = n := by
  induction m generalizing lo n with
  | nil =>
    cases n with
    | nil => rfl
    | cons e n => have := h e.1; simp [Memory.read] at this
  | cons e m ih =>
    obtain ⟨k, v⟩ := e
    cases n with
    | nil => have := h k; simp [Memory.read] at this
    | cons f n =>
      obtain ⟨l, u⟩ := f
      simp only [Memory.wfFrom, Bool.and_eq_true, decide_eq_true_eq] at hm hn
      have low_m : ∀ a w, Memory.read m a = some w → k + 1 ≤ a := fun a w hr => (Memory.lt_of_read hm.2 hr).1
      have low_n : ∀ a w, Memory.read n a = some w → l + 1 ≤ a := fun a w hr => (Memory.lt_of_read hn.2 hr).1
      have hk : k = l := by
        have h1 := h k
        have h2 := h l
        by_contra hne
        simp only [Memory.read, if_pos, if_neg hne, if_neg (Ne.symm hne)] at h1 h2
        have := low_n k v h1.symm
        have := low_m l u h2
        omega
      subst hk
      have hv : v = u := by have := h k; simpa [Memory.read] using this
      subst hv
      refine congrArg _ (ih hm.2 hn.2 fun a => ?_)
      have ha := h a
      by_cases hka : k = a
      · subst hka
        cases hr : Memory.read m k with
        | some w => have := low_m k w hr; omega
        | none =>
          cases hr' : Memory.read n k with
          | some w => have := low_n k w hr'; omega
          | none => rfl
      · simpa [Memory.read, hka] using ha

/-! ## `MemRead` and the loader's writes -/

theorem State.memRead_ok {s : State} {a : Nat} {w : W16} :
    s.memRead a = .ok w ↔ a ≤ 32767 ∧ s.mem.read a = some w := by
  unfold State.memRead
  split
  · cases h : s.mem.read a <;> simp_all
  · simp; omega

theorem State.memRead_error {s : State} {a : Nat} {t : Trap} :
    s.memRead a = .error t ↔ t = .unmappedAccess a ∧ (32767 < a ∨ s.mem.read a = none) := by
  unfold State.memRead
  split
  · cases h : s.mem.read a
    · simp [eq_comm]
    · simp; omega
  · simp [eq_comm]; omega

@[simp] theorem State.memRead_issue (s : State) (n a : Nat) : (s.issue n).memRead a = s.memRead a := by
  simp [State.memRead]

/-- What the loader's writes leave: the words at their addresses, everything else as before (R273). -/
theorem Memory.read_writeWords (m : Memory) (ws : List W16) (addr b : Nat) (hb : b < Config.memWords) :
    (m.writeWords addr ws).read b = if addr ≤ b ∧ b < addr + ws.length then ws[b - addr]? else m.read b := by
  induction ws generalizing m addr with
  | nil =>
    rw [Memory.writeWords, if_neg]
    simp only [List.length_nil]; omega
  | cons w ws ih =>
    rw [Memory.writeWords, ih]
    by_cases h1 : addr = b
    · subst h1
      simp [hb, Memory.read_insert]
    · have h2 : (if addr < Config.memWords then m.insert addr w else m).read b = m.read b := by
        split
        · simp [Memory.read_insert, show b ≠ addr from fun e => h1 e.symm]
        · rfl
      rw [h2]
      by_cases h3 : addr + 1 ≤ b ∧ b < addr + 1 + ws.length
      · rw [if_pos h3, if_pos ⟨by omega, by simp only [List.length_cons]; omega⟩]
        rw [show b - addr = (b - (addr + 1)) + 1 by omega]
        simp
      · rw [if_neg h3, if_neg]
        simp only [List.length_cons]; omega

end Sys2Proof.Machine
end

