-- ==== Sys2Proof/Laws/Ops.lean ====
section
/-! SUPPORT. For each shared operation, once, everything it can do: what its success and its fault say. Later proofs cite
these and do not unfold the operation. -/

namespace Sys2Proof.Machine

/-! ## The range test, the stack -/

theorem toValue_ok {c : Code} {v : V15} :
    toValue c = .ok v ↔ c.toNat ≤ 32767 ∧ v = c.setWidth 15 := by
  by_cases h : c.toNat ≤ Config.valueMax
  · simp [toValue, h, show c.toNat ≤ 32767 from h, eq_comm]
  · simp [toValue, h, show ¬ c.toNat ≤ 32767 from h]

theorem toValue_error {c : Code} {t : Trap} :
    toValue c = .error t ↔ 32767 < c.toNat ∧ t = .invalidNumber c := by
  by_cases h : c.toNat ≤ Config.valueMax
  · simp [toValue, h, show c.toNat ≤ 32767 from h]
  · simp [toValue, h, Nat.lt_of_not_le (show ¬ c.toNat ≤ 32767 from h), eq_comm]

/-- A `V15` passes the range test unchanged: only a wider word can fail it (R38). -/
@[simp] theorem toValue_of_value (v : V15) : toValue (v.setWidth 21) = .ok v := by
  have h := v.isLt
  rw [toValue_ok]
  refine ⟨?_, ?_⟩
  · rw [BitVec.toNat_setWidth]; omega
  · apply BitVec.eq_of_toNat_eq
    rw [BitVec.toNat_setWidth, BitVec.toNat_setWidth]; omega

theorem State.push_ok {s t : State} {c : Code} :
    s.push c = .ok t ↔
      ∃ v, toValue c = .ok v ∧ s.stackFull = false ∧ t = { s with stack := v :: s.stack } := by
  unfold State.push
  cases h : toValue c with
  | error e => simp
  | ok v => cases hf : s.stackFull <;> simp [eq_comm]

theorem State.push_error {s : State} {c : Code} {e : Trap} :
    s.push c = .error e ↔
      toValue c = .error e ∨ ∃ v, toValue c = .ok v ∧ s.stackFull = true ∧ e = .stackOverflow v := by
  unfold State.push
  cases h : toValue c with
  | error e => simp
  | ok v => cases hf : s.stackFull <;> simp [eq_comm]

/-- The capacity test (R28): only a finite capacity that the depth has reached. -/
theorem State.stackFull_iff {s : State} : s.stackFull = true ↔ s.params.stackCap = some s.stack.length := by
  simp [State.stackFull]

@[simp] theorem State.stackFull_issue (s : State) (n : Nat) : (s.issue n).stackFull = s.stackFull := by
  simp [State.stackFull]

/-! ## The frame of an instruction -/

@[simp] theorem State.settle_ok (ipc : W16) (s t : State) : s.settle ipc (.ok t) = t := rfl

@[simp] theorem State.settle_error (ipc : W16) (s : State) (e : Trap) : s.settle ipc (.error e) = s.raise e ipc := rfl

/-- Everything `execute` can do: the body's state, or its fault taken after phases F3 and T. -/
theorem execute_next {n : Nat} {body : State → Except Trap State} {s t : State} (h : execute n body s = .next t) :
    body (s.issue n) = .ok t ∨ ∃ e, body (s.issue n) = .error e ∧ t = (s.issue n).raise e s.pc := by
  unfold execute at h
  injection h with h
  cases hb : body (s.issue n) with
  | ok u => rw [hb] at h; exact .inl (congrArg _ h)
  | error e => rw [hb] at h; exact .inr ⟨e, rfl, h.symm⟩

theorem execute_of_ok {n : Nat} {body : State → Except Trap State} {s t : State} (h : body (s.issue n) = .ok t) :
    execute n body s = .next t := by
  simp [execute, h]

theorem execute_of_error {n : Nat} {body : State → Except Trap State} {s : State} {e : Trap}
    (h : body (s.issue n) = .error e) : execute n body s = .next ((s.issue n).raise e s.pc) := by
  simp [execute, h]

/-! ## Operands -/

theorem State.withVal_eq {s : State} {o : Operand} {v : V15} {k : V15 → Except Trap State} (h : s.val o = .ok v) :
    s.withVal o k = k v := by
  simp [State.withVal, h]

theorem State.withVal_fault {s : State} {o : Operand} {e : Trap} {k : V15 → Except Trap State}
    (h : s.val o = .error e) : s.withVal o k = .error e := by
  simp [State.withVal, h]

theorem State.withVal_ok {s t : State} {o : Operand} {k : V15 → Except Trap State} :
    s.withVal o k = .ok t ↔ ∃ v, s.val o = .ok v ∧ k v = .ok t := by
  unfold State.withVal
  cases s.val o <;> simp

@[simp] theorem withTarget_reg (i : R3) (k : R3 → Except Trap State) : withTarget (.reg i) k = k i := rfl

@[simp] theorem withTarget_lit (v : V15) (k : R3 → Except Trap State) :
    withTarget (.lit v) k = .error (.badWriteTarget (v.setWidth 16)) := rfl

@[simp] theorem withTarget_bad (w : W16) (k : R3 → Except Trap State) :
    withTarget (.bad w) k = .error (.invalidNumber (w.setWidth 21)) := rfl

theorem withTarget_ok {o : Operand} {k : R3 → Except Trap State} {t : State} :
    withTarget o k = .ok t ↔ ∃ i, o = .reg i ∧ k i = .ok t := by
  cases o <;> simp

@[simp] theorem State.val_lit (s : State) (v : V15) : s.val (.lit v) = .ok v := rfl

@[simp] theorem State.val_reg (s : State) (i : R3) : s.val (.reg i) = .ok (s.reg i) := rfl

@[simp] theorem State.val_bad (s : State) (w : W16) :
    s.val (.bad w) = .error (.invalidNumber (w.setWidth 21)) := rfl

/-! ## What phase E can do, per shared operation -/

theorem State.aluWrite_ok {s t : State} {op : AluOp} {i : R3} {b c : V15} :
    s.aluWrite op i b c = .ok t ↔ op.div0 c = false ∧ t = s.setReg i (op.result b c) := by
  unfold State.aluWrite
  cases op.div0 c <;> simp [eq_comm]

/-- `div0` is asserted by `mod` alone, and only for a zero divisor (R167). -/
theorem AluOp.div0_iff {op : AluOp} {c : V15} : op.div0 c = true ↔ op = .mod ∧ c = 0 := by
  simp [AluOp.div0]

theorem State.popInto_ok {s t : State} {i : R3} :
    s.popInto i = .ok t ↔ ∃ v rest, s.stack = v :: rest ∧ t = { s with stack := rest }.setReg i v := by
  unfold State.popInto
  cases s.stack <;> simp [eq_comm]

theorem State.loadInto_ok {s t : State} {i : R3} {addr : V15} :
    s.loadInto i addr = .ok t ↔
      ∃ w v, s.memRead addr.toNat = .ok w ∧ toValue (w.setWidth 21) = .ok v ∧ t = s.setReg i v := by
  unfold State.loadInto
  cases s.memRead addr.toNat with
  | error e => simp
  | ok w => cases h : toValue (w.setWidth 21) <;> simp [h, eq_comm]

theorem State.callTo_ok {s t : State} {a : V15} :
    s.callTo a = .ok t ↔
      ∃ v, toValue (s.pc.setWidth 21) = .ok v ∧ s.stackFull = false ∧
        t = { s with stack := v :: s.stack }.jump a := by
  unfold State.callTo
  cases h : s.push (s.pc.setWidth 21) with
  | error e =>
    simp only [reduceCtorEq, false_iff, not_exists, not_and]
    intro v hv hf _
    have := State.push_ok.2 ⟨v, hv, hf, rfl⟩
    rw [h] at this
    exact absurd this (by simp)
  | ok u =>
    obtain ⟨v, hv, hf, rfl⟩ := State.push_ok.1 h
    constructor
    · intro ht; injection ht with ht; exact ⟨v, hv, hf, ht.symm⟩
    · rintro ⟨v', hv', -, rfl⟩
      rw [hv] at hv'; injection hv' with hv'; subst hv'; rfl

theorem State.returnOrStop_cases (s : State) :
    (s.stack = [] ∧ s.returnOrStop = s.stop .retEmpty) ∨
      ∃ v rest, s.stack = v :: rest ∧ s.returnOrStop = { s with stack := rest }.jump v := by
  unfold State.returnOrStop
  cases h : s.stack with
  | nil => exact .inl ⟨rfl, rfl⟩
  | cons v rest => exact .inr ⟨v, rest, rfl, rfl⟩

/-! ## Input -/

/-- Everything a delivery can do (R201, R211): echo and register write, or the fault that does neither. -/
theorem State.deliver_cases (p : PendingIn) (c : Code) (s : State) :
    (c.toNat ≤ 32767 ∧ s.deliver p c = (s.emit (c.setWidth 15)).setReg p.target (c.setWidth 15)) ∨
      (32767 < c.toNat ∧ s.deliver p c = s.raise (.invalidNumber c) p.ipc) := by
  unfold State.deliver
  cases h : toValue c with
  | ok v =>
    obtain ⟨hc, rfl⟩ := toValue_ok.1 h
    exact .inl ⟨hc, rfl⟩
  | error e =>
    obtain ⟨hc, rfl⟩ := toValue_error.1 h
    exact .inr ⟨hc, rfl⟩

/-- Everything a console command can do (R250 to R254). -/
theorem State.command_cases (line : List Code) (s : State) :
    s.command line = s.dump ∨ (∃ b, s.command line = { s with trace := b }) ∨ s.command line = s.hack ∨
      s.command line = s := by
  unfold State.command
  split
  · exact .inl rfl
  split
  · exact .inr (.inl ⟨true, rfl⟩)
  split
  · exact .inr (.inl ⟨false, rfl⟩)
  split
  · exact .inr (.inr (.inl rfl))
  · exact .inr (.inr (.inr rfl))

/-- The induction over the live events, once: what holds of the state and the pending `in` through every sentinel, line
character and command holds where the `in` ends, in one of the three ways it can. -/
theorem State.serveLive_induct {Q : State → PendingIn → Prop} {R : State → Prop}
    (sentinel : ∀ s p c, Q s p → p.line = none → s.isSentinel c = true → Q s { p with line := some [] })
    (char : ∀ s p l c, Q s p → p.line = some l → Q s { p with line := some (l ++ [c]) })
    (command : ∀ s p l, Q s p → p.line = some l → Q (s.command l) { p with line := none })
    (holds : ∀ s p, Q s p → R { s with live := [], hold := some p })
    (ends : ∀ s p es, Q s p → R (State.stop .inputEof { s with live := es, hold := none }))
    (delivers : ∀ s p c es, Q s p → p.line = none → R (State.deliver p c { s with live := es, hold := none }))
    (es : List LiveEvent) (s : State) (p : PendingIn) (h : Q s p) : R (s.serveLive p es) := by
  induction es generalizing s p with
  | nil => exact holds s p h
  | cons e es ih =>
    cases e with
    | eof => exact ends s p es h
    | char c =>
      cases hl : p.line with
      | none =>
        simp only [State.serveLive, hl]
        split
        · rename_i hs; exact ih _ _ (sentinel s p c h hl hs)
        · exact delivers s p c es h hl
      | some l =>
        simp only [State.serveLive, hl]
        split
        · exact ih _ _ (command s p l h hl)
        · exact ih _ _ (char s p l c h hl)

/-- Everything the input side can do (R206): a scripted character is delivered, or the script is spent and the live source
is asked. -/
theorem State.takeInput_cases (p : PendingIn) (s : State) :
    (∃ c cs lines, nextScripted s.cur s.script = some (c, cs, lines) ∧
      s.takeInput p = State.deliver p c { s with cur := cs, script := lines }) ∨
    (nextScripted s.cur s.script = none ∧
      s.takeInput p = State.serveLive { s with cur := [], script := [] } p s.live) := by
  unfold State.takeInput
  cases h : nextScripted s.cur s.script with
  | none => exact .inr ⟨rfl, rfl⟩
  | some x => exact .inl ⟨x.1, x.2.1, x.2.2, rfl, rfl⟩

end Sys2Proof.Machine
end

