-- ==== Sys2Proof/Laws/Fetch.lean ====
section
/-! SUPPORT. What the decoder and the fetch can do: the row an opcode word has, how many words an instruction takes, where
they were read. -/

namespace Sys2Proof

/-- Decoding takes the opcode word and then exactly the operand words the instruction has (R90, R103). -/
theorem Format.decode_length {f : Format} {ws rest : List W16} {i : Instr} (h : f.decode ws = .ok (i, rest)) :
    ws.length = f.arity + rest.length := by
  unfold Format.decode at h
  split at h <;> simp_all [Format.arity]
  all_goals omega

/-- The words a format takes are there exactly when there are as many as its operands. -/
theorem Format.decode_exact {f : Format} {ws : List W16} (h : ws.length = f.arity) : ∃ i, f.decode ws = .ok (i, []) := by
  cases f with
  | op0 i => exact ⟨i, by cases ws <;> simp_all [Format.arity, Format.decode]⟩
  | op1 mk =>
    match ws, h with
    | [a], _ => exact ⟨_, rfl⟩
  | op2 mk =>
    match ws, h with
    | [a, b], _ => exact ⟨_, rfl⟩
  | op3 mk =>
    match ws, h with
    | [a, b, c], _ => exact ⟨_, rfl⟩

/-- Every row of the table makes an instruction with as many operands as its format has (R92, R94). -/
theorem opcodeTable_arity :
    ∀ r ∈ opcodeTable, ∀ ws rest i, r.format.decode ws = .ok (i, rest) → i.operands.length = r.format.arity := by
  intro r hr ws rest i h
  simp only [opcodeTable, List.cons_append, List.nil_append, List.mem_cons, List.not_mem_nil, or_false] at hr
  rcases hr with rfl | rfl | rfl | rfl | rfl | rfl | rfl | rfl | rfl | rfl | rfl | rfl | rfl | rfl | rfl | rfl | rfl | rfl |
    rfl | rfl | rfl | rfl <;>
    rcases ws with _ | ⟨a, _ | ⟨b, _ | ⟨c, ws⟩⟩⟩ <;>
    simp only [Format.decode, reduceCtorEq, Except.ok.injEq, Prod.mk.injEq] at h <;>
    (obtain ⟨rfl, -⟩ := h; rfl)

theorem opcodeRow_mem {op : W16} {r : OpcodeRow} (h : opcodeRow op = some r) : r ∈ opcodeTable ∧ r.opcode = op.toNat := by
  refine ⟨List.mem_of_find?_eq_some h, ?_⟩
  have := List.find?_some h
  simpa using this

namespace Machine

theorem State.readWords_length {s : State} {addr n : Nat} {ws : List W16} (h : s.readWords addr n = .ok ws) :
    ws.length = n := by
  induction n generalizing addr ws with
  | zero => simp [State.readWords] at h; simp [← h]
  | succ n ih =>
    unfold State.readWords at h
    split at h
    · cases h
    split at h
    · cases h
    · rename_i ws' h'
      injection h with h
      simp [← h, ih h']

/-- The last word read is in the 32768 cells. -/
theorem State.readWords_bound {s : State} {addr n : Nat} {ws : List W16} (h : s.readWords addr n = .ok ws)
    (hn : 0 < n) : addr + n ≤ 32768 := by
  induction n generalizing addr ws with
  | zero => omega
  | succ n ih =>
    unfold State.readWords at h
    split at h
    · cases h
    rename_i w hw
    have hr := (State.memRead_ok.1 hw).1
    split at h
    · cases h
    · rename_i ws' h'
      cases n with
      | zero => omega
      | succ n => have := ih h' (by omega); omega

/-- Everything a good fetch says: the opcode word has a row, its operand words were read, and they decode to the
instruction. -/
theorem State.fetch_ok {s : State} {i : Instr} (h : s.fetch = .ok i) :
    ∃ op r ws, s.memRead s.pc.toNat = .ok op ∧ opcodeRow op = some r ∧
      s.readWords (s.pc.toNat + 1) r.format.arity = .ok ws ∧ r.format.decode ws = .ok (i, []) := by
  unfold State.fetch at h
  split at h
  · cases h
  rename_i op hop
  split at h
  · cases h
  rename_i r hr
  split at h
  · cases h
  rename_i ws hws
  refine ⟨op, r, ws, hop, hr, hws, ?_⟩
  obtain ⟨j, hj⟩ := Format.decode_exact (State.readWords_length hws)
  have : decode (op :: ws) = .ok (j, []) := by simp [decode, hr, hj]
  rw [this] at h
  injection h with h
  rw [← h, hj]

/-- A fetched instruction lies wholly in the 32768 cells, so the advance of the pc stays within 32768 (R26). -/
theorem State.fetch_bound {s : State} {i : Instr} (h : s.fetch = .ok i) :
    s.pc.toNat + 1 + i.operands.length ≤ 32768 := by
  obtain ⟨op, r, ws, hop, hr, hws, hd⟩ := State.fetch_ok h
  rw [opcodeTable_arity r (opcodeRow_mem hr).1 ws [] i hd]
  have h0 := (State.memRead_ok.1 hop).1
  rcases Nat.eq_zero_or_pos r.format.arity with h1 | h1
  · omega
  · have := State.readWords_bound hws h1; omega

end Machine

end Sys2Proof
end

