-- ==== Sys2Proof/Laws/PerInstr.lean ====
section
/-! SUPPORT. Per-instruction laws, one lemma per constructor of `Instr`. -/

namespace Sys2Proof.Laws.EncodedLength

/-- An instruction is one opcode word and as many words as it has operands, at most four in all (R90, R103). -/
def Statement (i : Instr) : Prop :=
  (encode i).length = 1 + i.operands.length ∧ (encode i).length ≤ 4

/-- The case analysis, once. -/
theorem of_any (i : Instr) : Statement i := by
  cases i <;> simp [Statement, encode, Instr.operands]

theorem halt : Statement (.halt) := of_any _

theorem set (a b : Operand) : Statement (.set a b) := of_any _

theorem push (a : Operand) : Statement (.push a) := of_any _

theorem pop (a : Operand) : Statement (.pop a) := of_any _

theorem eq (a b c : Operand) : Statement (.eq a b c) := of_any _

theorem gt (a b c : Operand) : Statement (.gt a b c) := of_any _

theorem jmp (a : Operand) : Statement (.jmp a) := of_any _

theorem jt (a b : Operand) : Statement (.jt a b) := of_any _

theorem jf (a b : Operand) : Statement (.jf a b) := of_any _

theorem add (a b c : Operand) : Statement (.add a b c) := of_any _

theorem mult (a b c : Operand) : Statement (.mult a b c) := of_any _

theorem mod (a b c : Operand) : Statement (.mod a b c) := of_any _

theorem and (a b c : Operand) : Statement (.and a b c) := of_any _

theorem or (a b c : Operand) : Statement (.or a b c) := of_any _

theorem not (a b : Operand) : Statement (.not a b) := of_any _

theorem rmem (a b : Operand) : Statement (.rmem a b) := of_any _

theorem wmem (a b : Operand) : Statement (.wmem a b) := of_any _

theorem call (a : Operand) : Statement (.call a) := of_any _

theorem ret : Statement (.ret) := of_any _

theorem out (a : Operand) : Statement (.out a) := of_any _

theorem input (a : Operand) : Statement (.input a) := of_any _

theorem noop : Statement (.noop) := of_any _

end Sys2Proof.Laws.EncodedLength
end

