-- ==== Sys2Proof/Laws/Exec.lean ====
section
/-! SUPPORT. The meaning of each instruction as the frame of R98 around its own phases D and E: one equation per instruction,
which later proofs rewrite with and so never unfold `exec`. -/

namespace Sys2Proof.Machine

theorem exec_halt (s : State) : exec .halt s = execute 0 (fun s1 => .ok (s1.stop .haltInstr)) s := rfl

theorem exec_set (a b : Operand) (s : State) :
    exec (.set a b) s = execute 2 (fun s1 => withTarget a fun i => s1.withVal b fun v => .ok (s1.setReg i v)) s := rfl

theorem exec_push (a : Operand) (s : State) :
    exec (.push a) s = execute 1 (fun s1 => s1.withVal a fun v => s1.push (v.setWidth 21)) s := rfl

theorem exec_pop (a : Operand) (s : State) :
    exec (.pop a) s = execute 1 (fun s1 => withTarget a fun i => s1.popInto i) s := rfl

theorem exec_eq (a b c : Operand) (s : State) : exec (.eq a b c) s = executeAlu3 .eq a b c s := rfl

theorem exec_gt (a b c : Operand) (s : State) : exec (.gt a b c) s = executeAlu3 .gt a b c s := rfl

theorem exec_jmp (a : Operand) (s : State) :
    exec (.jmp a) s = execute 1 (fun s1 => s1.withVal a fun t => .ok (s1.jump t)) s := rfl

theorem exec_jt (a b : Operand) (s : State) :
    exec (.jt a b) s = execute 2 (fun s1 => s1.withVal a fun v => s1.withVal b fun t =>
      .ok (if v ≠ 0 then s1.jump t else s1)) s := rfl

theorem exec_jf (a b : Operand) (s : State) :
    exec (.jf a b) s = execute 2 (fun s1 => s1.withVal a fun v => s1.withVal b fun t =>
      .ok (if v = 0 then s1.jump t else s1)) s := rfl

theorem exec_add (a b c : Operand) (s : State) : exec (.add a b c) s = executeAlu3 .add a b c s := rfl

theorem exec_mult (a b c : Operand) (s : State) : exec (.mult a b c) s = executeAlu3 .mult a b c s := rfl

theorem exec_mod (a b c : Operand) (s : State) : exec (.mod a b c) s = executeAlu3 .mod a b c s := rfl

theorem exec_and (a b c : Operand) (s : State) : exec (.and a b c) s = executeAlu3 .and a b c s := rfl

theorem exec_or (a b c : Operand) (s : State) : exec (.or a b c) s = executeAlu3 .or a b c s := rfl

theorem exec_not (a b : Operand) (s : State) :
    exec (.not a b) s = execute 2 (fun s1 => withTarget a fun i => s1.withVal b fun x => s1.aluWrite .not i x 0) s := rfl

theorem exec_rmem (a b : Operand) (s : State) :
    exec (.rmem a b) s = execute 2 (fun s1 => withTarget a fun i => s1.withVal b fun addr => s1.loadInto i addr) s := rfl

theorem exec_wmem (a b : Operand) (s : State) :
    exec (.wmem a b) s = execute 2 (fun s1 => s1.withVal a fun addr => s1.withVal b fun v =>
      .ok (s1.memWrite addr (v.setWidth 16))) s := rfl

theorem exec_call (a : Operand) (s : State) :
    exec (.call a) s = execute 1 (fun s1 => s1.withVal a fun t => s1.callTo t) s := rfl

theorem exec_ret (s : State) : exec .ret s = execute 0 (fun s1 => .ok s1.returnOrStop) s := rfl

theorem exec_out (a : Operand) (s : State) :
    exec (.out a) s = execute 1 (fun s1 => s1.withVal a fun c => .ok (s1.emit c)) s := rfl

theorem exec_input (a : Operand) (s : State) :
    exec (.input a) s = execute 1 (fun s1 => withTarget a fun i =>
      .ok (s1.takeInput { ipc := s.pc, target := i, line := none })) s := rfl

theorem exec_noop (s : State) : exec .noop s = execute 0 (fun s1 => .ok s1) s := rfl

/-- A three-operand ALU instruction, resolved in the order `a`, `b`, `c` (R160). -/
theorem executeAlu3_eq (op : AluOp) (a b c : Operand) (s : State) :
    executeAlu3 op a b c s = execute 3 (fun s1 =>
      withTarget a fun i => s1.withVal b fun x => s1.withVal c fun y => s1.aluWrite op i x y) s := rfl

end Sys2Proof.Machine
end

