-- ==== Sys2Proof/Laws/Input.lean ====
section
/-! SUPPORT. The input side, field by field: what a console command and the delivery of a character leave unchanged, and the
induction over one `in`, once. -/

namespace Sys2Proof.Machine

/-! ## The script -/

/-- The next scripted character stands after any number of empty lines (R206). -/
@[simp] theorem nextScripted_skip (k : Nat) (c : Code) (cs : List Code) (lines : List (List Code)) :
    nextScripted [] (List.replicate k [] ++ (c :: cs) :: lines) = some (c, cs, lines) := by
  induction k with
  | zero => simp [nextScripted]
  | succ k ih => simpa [List.replicate_succ, nextScripted] using ih

theorem nextScripted_spent {lines : List (List Code)} (h : ∀ line ∈ lines, line = []) : nextScripted [] lines = none := by
  induction lines with
  | nil => rfl
  | cons l ls ih =>
    obtain rfl := h l (by simp)
    exact ih fun line hl => h line (by simp [hl])

/-- The pair (`cur`, `script`) is the queue `cur ++ concat(script)` (R208). -/
theorem nextScripted_queue (cur : List Code) (script : List (List Code)) :
    (nextScripted cur script = none ∧ cur ++ script.flatten = []) ∨
      ∃ c cs lines, nextScripted cur script = some (c, cs, lines) ∧ cur ++ script.flatten = c :: (cs ++ lines.flatten) := by
  induction script generalizing cur with
  | nil =>
    cases cur with
    | nil => exact .inl ⟨rfl, rfl⟩
    | cons c cs => exact .inr ⟨c, cs, [], rfl, rfl⟩
  | cons l ls ih =>
    cases cur with
    | nil => simpa [nextScripted] using ih l
    | cons c cs => exact .inr ⟨c, cs, l :: ls, rfl, rfl⟩

/-! ## The sentinel -/

/-- A character is the sentinel only where there is one (R210). -/
theorem State.isSentinel_iff {s : State} {c : Code} :
    s.isSentinel c = true ↔ ∃ b, s.params.sentinel = some b ∧ c = b.setWidth 21 := by
  unfold State.isSentinel
  cases s.params.sentinel <;> simp

theorem State.isSentinel_none {s : State} (h : s.params.sentinel = none) (c : Code) : s.isSentinel c = false := by
  simp [State.isSentinel, h]

/-! ## `State.command`, field by field: it writes `mem`, `regs`, `trace`, `diag` and nothing else -/

/-- A property that a dump, a trace write and a patch each keep is kept by every command line. -/
theorem State.command_keeps {α : Type} {f : State → α} (line : List Code) (s : State) (hd : f s.dump = f s)
    (ht : ∀ b, f { s with trace := b } = f s) (hh : f s.hack = f s) : f (s.command line) = f s := by
  rcases State.command_cases line s with h | ⟨b, h⟩ | h | h <;> rw [h]
  · exact hd
  · exact ht b
  · exact hh

@[simp] theorem State.command_pc (l : List Code) (s : State) : (s.command l).pc = s.pc :=
  State.command_keeps (f := State.pc) l s rfl (fun _ => rfl) rfl
@[simp] theorem State.command_stack (l : List Code) (s : State) : (s.command l).stack = s.stack :=
  State.command_keeps (f := State.stack) l s rfl (fun _ => rfl) rfl
@[simp] theorem State.command_run (l : List Code) (s : State) : (s.command l).run = s.run :=
  State.command_keeps (f := State.run) l s rfl (fun _ => rfl) rfl
@[simp] theorem State.command_cause (l : List Code) (s : State) : (s.command l).cause = s.cause :=
  State.command_keeps (f := State.cause) l s rfl (fun _ => rfl) rfl
@[simp] theorem State.command_fpc (l : List Code) (s : State) : (s.command l).fpc = s.fpc :=
  State.command_keeps (f := State.fpc) l s rfl (fun _ => rfl) rfl
@[simp] theorem State.command_finfo (l : List Code) (s : State) : (s.command l).finfo = s.finfo :=
  State.command_keeps (f := State.finfo) l s rfl (fun _ => rfl) rfl
@[simp] theorem State.command_cur (l : List Code) (s : State) : (s.command l).cur = s.cur :=
  State.command_keeps (f := State.cur) l s rfl (fun _ => rfl) rfl
@[simp] theorem State.command_script (l : List Code) (s : State) : (s.command l).script = s.script :=
  State.command_keeps (f := State.script) l s rfl (fun _ => rfl) rfl
@[simp] theorem State.command_out (l : List Code) (s : State) : (s.command l).out = s.out :=
  State.command_keeps (f := State.out) l s rfl (fun _ => rfl) rfl
@[simp] theorem State.command_launch (l : List Code) (s : State) : (s.command l).launch = s.launch :=
  State.command_keeps (f := State.launch) l s rfl (fun _ => rfl) rfl
@[simp] theorem State.command_hold (l : List Code) (s : State) : (s.command l).hold = s.hold :=
  State.command_keeps (f := State.hold) l s rfl (fun _ => rfl) rfl
@[simp] theorem State.command_live (l : List Code) (s : State) : (s.command l).live = s.live :=
  State.command_keeps (f := State.live) l s rfl (fun _ => rfl) rfl
@[simp] theorem State.command_requests (l : List Code) (s : State) : (s.command l).requests = s.requests :=
  State.command_keeps (f := State.requests) l s rfl (fun _ => rfl) rfl
@[simp] theorem State.command_params (l : List Code) (s : State) : (s.command l).params = s.params :=
  State.command_keeps (f := State.params) l s rfl (fun _ => rfl) rfl
@[simp] theorem State.command_free (l : List Code) (s : State) : (s.command l).free = s.free :=
  State.command_keeps (f := State.free) l s rfl (fun _ => rfl) rfl

/-- A command line keeps the canonical form of memory (R62). -/
theorem State.command_mem_wf (l : List Code) {s : State} (h : s.mem.wf = true) : (s.command l).mem.wf = true := by
  rcases State.command_cases l s with hc | ⟨b, hc⟩ | hc | hc <;> rw [hc]
  · exact h
  · exact h
  · exact Memory.wf_write _ _ (Memory.wf_write _ _ (Memory.wf_write _ _ h))
  · exact h

/-- A command line only adds to `DIAG`, at its end (R35). -/
theorem State.command_diag_prefix (l : List Code) (s : State) : s.diag <+: (s.command l).diag := by
  rcases State.command_cases l s with hc | ⟨b, hc⟩ | hc | hc <;> simp only [hc, List.prefix_refl]
  · exact List.prefix_append _ _
  · exact List.prefix_refl _

/-! ## `State.deliver`, field by field: `out` and the target register, or the fault registers, `run` and `cause` -/

/-- What the echo, the register write and the taking of a fault each leave is left by a delivery. -/
theorem State.deliver_keeps {α : Type} {f : State → α} (p : PendingIn) (c : Code) (s : State)
    (hw : ∀ v i, f ((s.emit v).setReg i v) = f s) (hr : ∀ t ipc, f (s.raise t ipc) = f s) : f (s.deliver p c) = f s := by
  rcases State.deliver_cases p c s with ⟨_, h⟩ | ⟨_, h⟩ <;> rw [h]
  · exact hw _ _
  · exact hr _ _

@[simp] theorem State.deliver_pc (p : PendingIn) (c : Code) (s : State) : (s.deliver p c).pc = s.pc :=
  State.deliver_keeps (f := State.pc) p c s (fun _ _ => rfl) (fun _ _ => rfl)
@[simp] theorem State.deliver_stack (p : PendingIn) (c : Code) (s : State) : (s.deliver p c).stack = s.stack :=
  State.deliver_keeps (f := State.stack) p c s (fun _ _ => rfl) (fun _ _ => rfl)
@[simp] theorem State.deliver_mem (p : PendingIn) (c : Code) (s : State) : (s.deliver p c).mem = s.mem :=
  State.deliver_keeps (f := State.mem) p c s (fun _ _ => rfl) (fun _ _ => rfl)
@[simp] theorem State.deliver_trace (p : PendingIn) (c : Code) (s : State) : (s.deliver p c).trace = s.trace :=
  State.deliver_keeps (f := State.trace) p c s (fun _ _ => rfl) (fun _ _ => rfl)
@[simp] theorem State.deliver_cur (p : PendingIn) (c : Code) (s : State) : (s.deliver p c).cur = s.cur :=
  State.deliver_keeps (f := State.cur) p c s (fun _ _ => rfl) (fun _ _ => rfl)
@[simp] theorem State.deliver_script (p : PendingIn) (c : Code) (s : State) : (s.deliver p c).script = s.script :=
  State.deliver_keeps (f := State.script) p c s (fun _ _ => rfl) (fun _ _ => rfl)
@[simp] theorem State.deliver_diag (p : PendingIn) (c : Code) (s : State) : (s.deliver p c).diag = s.diag :=
  State.deliver_keeps (f := State.diag) p c s (fun _ _ => rfl) (fun _ _ => rfl)
@[simp] theorem State.deliver_launch (p : PendingIn) (c : Code) (s : State) : (s.deliver p c).launch = s.launch :=
  State.deliver_keeps (f := State.launch) p c s (fun _ _ => rfl) (fun _ _ => rfl)
@[simp] theorem State.deliver_hold (p : PendingIn) (c : Code) (s : State) : (s.deliver p c).hold = s.hold :=
  State.deliver_keeps (f := State.hold) p c s (fun _ _ => rfl) (fun _ _ => rfl)
@[simp] theorem State.deliver_live (p : PendingIn) (c : Code) (s : State) : (s.deliver p c).live = s.live :=
  State.deliver_keeps (f := State.live) p c s (fun _ _ => rfl) (fun _ _ => rfl)
@[simp] theorem State.deliver_requests (p : PendingIn) (c : Code) (s : State) : (s.deliver p c).requests = s.requests :=
  State.deliver_keeps (f := State.requests) p c s (fun _ _ => rfl) (fun _ _ => rfl)
@[simp] theorem State.deliver_params (p : PendingIn) (c : Code) (s : State) : (s.deliver p c).params = s.params :=
  State.deliver_keeps (f := State.params) p c s (fun _ _ => rfl) (fun _ _ => rfl)
@[simp] theorem State.deliver_free (p : PendingIn) (c : Code) (s : State) : (s.deliver p c).free = s.free :=
  State.deliver_keeps (f := State.free) p c s (fun _ _ => rfl) (fun _ _ => rfl)

/-- A delivery writes no register but its target. -/
theorem State.deliver_reg_other (p : PendingIn) (c : Code) (s : State) {r : R3} (h : r ≠ p.target) :
    (s.deliver p c).reg r = s.reg r := by
  rcases State.deliver_cases p c s with ⟨_, hc⟩ | ⟨_, hc⟩ <;> rw [hc]
  · rw [State.reg_setReg_other _ _ h]; rfl
  · rfl

/-- A delivery adds at most the one character to `OUT`. -/
theorem State.deliver_out (p : PendingIn) (c : Code) (s : State) :
    (s.deliver p c).out = s.out ∨ ∃ v, (s.deliver p c).out = s.out ++ [v] := by
  rcases State.deliver_cases p c s with ⟨_, hc⟩ | ⟨_, hc⟩ <;> rw [hc]
  · exact .inr ⟨_, rfl⟩
  · exact .inl rfl

/-! ## One `in` -/

/-- A command line neither reads nor writes `hold` and `live`. -/
theorem State.command_hold_live (l : List Code) (s : State) (h : Option PendingIn) (es : List LiveEvent) :
    State.command l { s with hold := h, live := es } = { s.command l with hold := h, live := es } := by
  unfold State.command
  repeat' split
  all_goals rfl

/-- The events an `in` takes are those it is given: what stood in `hold` and `live` does not matter. -/
theorem State.serveLive_hold_live (es : List LiveEvent) (s : State) (p : PendingIn) (h : Option PendingIn)
    (l : List LiveEvent) : State.serveLive { s with hold := h, live := l } p es = s.serveLive p es := by
  induction es generalizing s p with
  | nil => rfl
  | cons e es ih =>
    cases e with
    | eof => rfl
    | char c =>
      cases hl : p.line with
      | none =>
        simp only [State.serveLive, hl]
        rw [show State.isSentinel { s with hold := h, live := l } c = s.isSentinel c from rfl]
        split
        · exact ih s _
        · rfl
      | some line =>
        simp only [State.serveLive, hl]
        split
        · rw [State.command_hold_live]; exact ih _ _
        · exact ih s _

/-- The induction over one `in`, once: the scripted delivery, or, the script being spent, the induction over the live
events. -/
theorem State.takeInput_induct {Q : State → PendingIn → Prop} {R : State → Prop} (s : State) (p : PendingIn)
    (scripted : ∀ c cs lines, nextScripted s.cur s.script = some (c, cs, lines) →
      R (State.deliver p c { s with cur := cs, script := lines }))
    (spent : nextScripted s.cur s.script = none → Q { s with cur := [], script := [] } p)
    (sentinel : ∀ s p c, Q s p → p.line = none → s.isSentinel c = true → Q s { p with line := some [] })
    (char : ∀ s p l c, Q s p → p.line = some l → Q s { p with line := some (l ++ [c]) })
    (command : ∀ s p l, Q s p → p.line = some l → Q (s.command l) { p with line := none })
    (holds : ∀ s p, Q s p → R { s with live := [], hold := some p })
    (ends : ∀ s p es, Q s p → R (State.stop .inputEof { s with live := es, hold := none }))
    (delivers : ∀ s p c es, Q s p → p.line = none → R (State.deliver p c { s with live := es, hold := none })) :
    R (s.takeInput p) := by
  rcases State.takeInput_cases p s with ⟨c, cs, lines, h1, h2⟩ | ⟨h1, h2⟩ <;> rw [h2]
  · exact scripted _ _ _ h1
  · exact State.serveLive_induct sentinel char command holds ends delivers s.live _ _ (spent h1)

/-! ## The events of one `in`, in parts -/

/-- The sentinel opens the console (R210). -/
theorem State.serveLive_sentinel {s : State} {p : PendingIn} {c : Code} (es : List LiveEvent) (hl : p.line = none)
    (hc : s.isSentinel c = true) : s.serveLive p (.char c :: es) = s.serveLive { p with line := some [] } es := by
  simp [State.serveLive, hl, hc]

/-- Characters of a command line are kept until its end (R250). -/
theorem State.serveLive_chars (s : State) (p : PendingIn) {l : List Code} (more : List Code) (es : List LiveEvent)
    (hl : p.line = some l) (hm : (Config.lineBreak : Code) ∉ more) :
    s.serveLive p (more.map LiveEvent.char ++ es) = s.serveLive { p with line := some (l ++ more) } es := by
  induction more generalizing p l with
  | nil => simp [← hl]
  | cons c more ih =>
    simp only [List.mem_cons, not_or] at hm
    simp only [List.map_cons, List.cons_append, State.serveLive, hl, if_neg (Ne.symm hm.1)]
    rw [ih _ rfl hm.2]
    simp

/-- The end of a command line: it is applied, and the `in` goes on (R250). -/
theorem State.serveLive_lineBreak (s : State) {p : PendingIn} {l : List Code} (es : List LiveEvent) (hl : p.line = some l) :
    s.serveLive p (.char Config.lineBreak :: es) = (s.command l).serveLive { p with line := none } es := by
  simp [State.serveLive, hl]

/-- A delivery neither reads nor writes `live`. -/
theorem State.deliver_live_comm (p : PendingIn) (c : Code) (s : State) (es : List LiveEvent) :
    State.deliver p c { s with live := es } = { s.deliver p c with live := es } := by
  unfold State.deliver
  cases toValue c <;> rfl

/-- Events given in two parts: the first part ends the `in` and the second is left, or the `in` holds and goes on with the
second part from where it holds (R209, R212). -/
theorem State.serveLive_append (es fs : List LiveEvent) (s : State) (p : PendingIn) :
    ((s.serveLive p es).hold = none ∧
      s.serveLive p (es ++ fs) = { s.serveLive p es with live := (s.serveLive p es).live ++ fs }) ∨
    ∃ q, (s.serveLive p es).hold = some q ∧ (s.serveLive p es).live = [] ∧
      s.serveLive p (es ++ fs) = (s.serveLive p es).serveLive q fs := by
  induction es generalizing s p with
  | nil =>
    refine .inr ⟨p, rfl, rfl, ?_⟩
    exact (State.serveLive_hold_live fs s p (some p) []).symm
  | cons e es ih =>
    cases e with
    | eof => exact .inl ⟨rfl, rfl⟩
    | char c =>
      cases hl : p.line with
      | none =>
        simp only [State.serveLive, hl, List.cons_append]
        split
        · exact ih _ _
        · refine .inl ⟨by simp, ?_⟩
          rw [State.deliver_live_comm p c { s with live := es, hold := none } (es ++ fs)]
          simp
      | some l =>
        simp only [State.serveLive, hl, List.cons_append]
        split
        · exact ih _ _
        · exact ih _ _

/-- Phases F3 and T neither read nor write `live`. -/
theorem State.issue_live_comm (s : State) (n : Nat) (es : List LiveEvent) :
    State.issue n { s with live := es } = { s.issue n with live := es } := by
  simp only [State.issue, State.traceStep]
  cases h : s.trace <;> simp [State.advance, h]

/-- While an `in` holds, the core stays running and launched, and no host move appears. -/
theorem State.serveLive_holding {s : State} {p q : PendingIn} {es : List LiveEvent} (hr : s.run = .running)
    (hh : (s.serveLive p es).hold = some q) :
    (s.serveLive p es).run = .running ∧ (s.serveLive p es).launch = s.launch ∧
      (s.serveLive p es).requests = s.requests := by
  have key : (s.serveLive p es).hold ≠ none → (s.serveLive p es).run = .running ∧
      (s.serveLive p es).launch = s.launch ∧ (s.serveLive p es).requests = s.requests := by
    refine State.serveLive_induct
      (Q := fun u _ => u.run = .running ∧ u.launch = s.launch ∧ u.requests = s.requests)
      (R := fun t => t.hold ≠ none → t.run = .running ∧ t.launch = s.launch ∧ t.requests = s.requests)
      ?_ ?_ ?_ ?_ ?_ ?_ es s p ⟨hr, rfl, rfl⟩
    · intro u _ _ hq _ _; exact hq
    · intro u _ _ _ hq _; exact hq
    · intro u _ l hq _; simpa using hq
    · intro u _ hq _; exact hq
    · intro u _ es _ hn; simp at hn
    · intro u _ c es _ _ hn; simp at hn
  exact key (by simp [hh])

end Sys2Proof.Machine
end

