-- ==== Sys2Proof/Laws/Effect.lean ====
section
/-! SUPPORT. Said once: everything an instruction can do (`exec_effect`), everything a step can do (`step_cases`) and everything
a host's move can do (`serveHost_cases`). Invariants and whole-machine statements are a case analysis over these. -/

namespace Sys2Proof.Machine

/-- What phases D and E of an instruction can do, short of a fault, to the state `s1` that phases F3 and T leave. -/
inductive Effect (s1 : State) : Instr → State → Prop
  | same (i : Instr) : Effect s1 i s1
  | write (i : Instr) (r : R3) (v : V15) : i.hasTarget = true → i.operands.head? = some (.reg r) →
      Effect s1 i (s1.setReg r v)
  | push (a : Operand) (v : V15) : s1.stackFull = false → Effect s1 (.push a) { s1 with stack := v :: s1.stack }
  | pop (r : R3) (v : V15) (rest : List V15) : s1.stack = v :: rest →
      Effect s1 (.pop (.reg r)) ({ s1 with stack := rest }.setReg r v)
  | jump (i : Instr) (t : V15) : Effect s1 i (s1.jump t)
  | store (a b : Operand) (addr v : V15) : s1.val a = .ok addr → s1.val b = .ok v →
      Effect s1 (.wmem a b) (s1.memWrite addr (v.setWidth 16))
  | call (a : Operand) (v t : V15) : s1.stackFull = false →
      Effect s1 (.call a) ({ s1 with stack := v :: s1.stack }.jump t)
  | ret (v : V15) (rest : List V15) : s1.stack = v :: rest → Effect s1 .ret ({ s1 with stack := rest }.jump v)
  | halt : Effect s1 .halt (s1.stop .haltInstr)
  | retEmpty : s1.stack = [] → Effect s1 .ret (s1.stop .retEmpty)
  | out (a : Operand) (c : V15) : Effect s1 (.out a) (s1.emit c)
  | input (r : R3) (ipc : W16) : s1.pc = ipc + 2 → Effect s1 (.input (.reg r)) (s1.takeInput ⟨ipc, r, none⟩)

/-! ## The faults of phases D and E: never a load error -/

theorem State.withVal_not_loadError {s : State} {o : Operand} {k : V15 → Except Trap State} {e : Trap}
    (h : s.withVal o k = .error e) (hk : ∀ v, k v = .error e → e.cause ≠ .loadError) : e.cause ≠ .loadError := by
  cases o with
  | lit v => exact hk _ h
  | reg i => exact hk _ h
  | bad w => injection h with h; subst h; simp [Trap.cause]

theorem withTarget_not_loadError {o : Operand} {k : R3 → Except Trap State} {e : Trap} (h : withTarget o k = .error e)
    (hk : ∀ i, k i = .error e → e.cause ≠ .loadError) : e.cause ≠ .loadError := by
  cases o with
  | lit v => injection h with h; subst h; simp [Trap.cause]
  | reg i => exact hk _ h
  | bad w => injection h with h; subst h; simp [Trap.cause]

theorem toValue_not_loadError {c : Code} {e : Trap} (h : toValue c = .error e) : e.cause ≠ .loadError := by
  rw [(toValue_error.1 h).2]; simp [Trap.cause]

theorem State.memRead_not_loadError {s : State} {a : Nat} {e : Trap} (h : s.memRead a = .error e) :
    e.cause ≠ .loadError := by
  rw [(State.memRead_error.1 h).1]; simp [Trap.cause]

theorem State.push_not_loadError {s : State} {c : Code} {e : Trap} (h : s.push c = .error e) : e.cause ≠ .loadError := by
  rcases State.push_error.1 h with h | ⟨v, _, _, rfl⟩
  · exact toValue_not_loadError h
  · simp [Trap.cause]

theorem State.callTo_not_loadError {s : State} {a : V15} {e : Trap} (h : s.callTo a = .error e) :
    e.cause ≠ .loadError := by
  unfold State.callTo at h
  split at h
  · cases h
  · rename_i hp; cases h; exact State.push_not_loadError hp

theorem State.popInto_not_loadError {s : State} {i : R3} {e : Trap} (h : s.popInto i = .error e) :
    e.cause ≠ .loadError := by
  unfold State.popInto at h
  split at h <;> cases h
  simp [Trap.cause]

theorem State.loadInto_not_loadError {s : State} {i : R3} {addr : V15} {e : Trap} (h : s.loadInto i addr = .error e) :
    e.cause ≠ .loadError := by
  unfold State.loadInto at h
  split at h
  · rename_i hm; cases h; exact State.memRead_not_loadError hm
  split at h
  · rename_i hv; cases h; exact toValue_not_loadError hv
  · cases h

theorem State.aluWrite_not_loadError {s : State} {op : AluOp} {i : R3} {b c : V15} {e : Trap}
    (h : s.aluWrite op i b c = .error e) : e.cause ≠ .loadError := by
  unfold State.aluWrite at h
  split at h <;> cases h
  simp [Trap.cause]

/-! ## Everything an instruction can do -/

/-- Every instruction answers a next state: an effect, or a fault taken after phases F3 and T, never a load error. -/
theorem exec_effect {i : Instr} {s t : State} (h : exec i s = .next t) :
    Effect (s.issue i.operands.length) i t ∨
      ∃ e : Trap, e.cause ≠ .loadError ∧ t = (s.issue i.operands.length).raise e s.pc := by
  have alu : ∀ op a b c (i : Instr), i.hasTarget = true → i.operands.head? = some a → i.operands.length = 3 →
      executeAlu3 op a b c s = .next t → Effect (s.issue i.operands.length) i t ∨
        ∃ e : Trap, e.cause ≠ .loadError ∧ t = (s.issue i.operands.length).raise e s.pc := by
    intro op a b c i h1 h2 h3 h
    rw [h3]
    rcases execute_next h with h | ⟨e, h, ht⟩
    · obtain ⟨r, rfl, h⟩ := withTarget_ok.1 h
      obtain ⟨x, hx, h⟩ := State.withVal_ok.1 h
      obtain ⟨y, hy, h⟩ := State.withVal_ok.1 h
      obtain ⟨_, rfl⟩ := State.aluWrite_ok.1 h
      exact .inl (.write _ _ _ h1 h2)
    · exact .inr ⟨e, withTarget_not_loadError h fun r h => State.withVal_not_loadError h fun x h =>
        State.withVal_not_loadError h fun y h => State.aluWrite_not_loadError h, ht⟩
  cases i with
  | halt => rw [exec_halt] at h; cases h; exact .inl .halt
  | set a b =>
    rw [exec_set] at h
    rcases execute_next h with h | ⟨e, h, ht⟩
    · obtain ⟨r, rfl, h⟩ := withTarget_ok.1 h
      obtain ⟨x, hx, h⟩ := State.withVal_ok.1 h
      cases h; exact .inl (.write _ _ _ rfl rfl)
    · exact .inr ⟨e, withTarget_not_loadError h fun r h => State.withVal_not_loadError h fun x h => (by cases h), ht⟩
  | push a =>
    rw [exec_push] at h
    rcases execute_next h with h | ⟨e, h, ht⟩
    · obtain ⟨x, hx, h⟩ := State.withVal_ok.1 h
      obtain ⟨v, _, hf, rfl⟩ := State.push_ok.1 h
      exact .inl (.push _ _ hf)
    · exact .inr ⟨e, State.withVal_not_loadError h fun x h => State.push_not_loadError h, ht⟩
  | pop a =>
    rw [exec_pop] at h
    rcases execute_next h with h | ⟨e, h, ht⟩
    · obtain ⟨r, rfl, h⟩ := withTarget_ok.1 h
      obtain ⟨v, rest, hs, rfl⟩ := State.popInto_ok.1 h
      exact .inl (.pop _ _ _ hs)
    · exact .inr ⟨e, withTarget_not_loadError h fun r h => State.popInto_not_loadError h, ht⟩
  | eq a b c => rw [exec_eq] at h; exact alu _ _ _ _ _ rfl rfl rfl h
  | gt a b c => rw [exec_gt] at h; exact alu _ _ _ _ _ rfl rfl rfl h
  | add a b c => rw [exec_add] at h; exact alu _ _ _ _ _ rfl rfl rfl h
  | mult a b c => rw [exec_mult] at h; exact alu _ _ _ _ _ rfl rfl rfl h
  | mod a b c => rw [exec_mod] at h; exact alu _ _ _ _ _ rfl rfl rfl h
  | and a b c => rw [exec_and] at h; exact alu _ _ _ _ _ rfl rfl rfl h
  | or a b c => rw [exec_or] at h; exact alu _ _ _ _ _ rfl rfl rfl h
  | not a b =>
    rw [exec_not] at h
    rcases execute_next h with h | ⟨e, h, ht⟩
    · obtain ⟨r, rfl, h⟩ := withTarget_ok.1 h
      obtain ⟨x, hx, h⟩ := State.withVal_ok.1 h
      obtain ⟨_, rfl⟩ := State.aluWrite_ok.1 h
      exact .inl (.write _ _ _ rfl rfl)
    · exact .inr ⟨e, withTarget_not_loadError h fun r h => State.withVal_not_loadError h fun x h =>
        State.aluWrite_not_loadError h, ht⟩
  | jmp a =>
    rw [exec_jmp] at h
    rcases execute_next h with h | ⟨e, h, ht⟩
    · obtain ⟨x, hx, h⟩ := State.withVal_ok.1 h
      cases h; exact .inl (.jump _ _)
    · exact .inr ⟨e, State.withVal_not_loadError h fun x h => (by cases h), ht⟩
  | jt a b =>
    rw [exec_jt] at h
    rcases execute_next h with h | ⟨e, h, ht⟩
    · obtain ⟨x, hx, h⟩ := State.withVal_ok.1 h
      obtain ⟨y, hy, h⟩ := State.withVal_ok.1 h
      by_cases hv : x ≠ 0
      · simp only [if_pos hv] at h; cases h; exact .inl (.jump _ _)
      · simp only [if_neg hv] at h; cases h; exact .inl (.same _)
    · exact .inr ⟨e, State.withVal_not_loadError h fun x h => State.withVal_not_loadError h fun y h => (by cases h), ht⟩
  | jf a b =>
    rw [exec_jf] at h
    rcases execute_next h with h | ⟨e, h, ht⟩
    · obtain ⟨x, hx, h⟩ := State.withVal_ok.1 h
      obtain ⟨y, hy, h⟩ := State.withVal_ok.1 h
      by_cases hv : x = 0
      · simp only [if_pos hv] at h; cases h; exact .inl (.jump _ _)
      · simp only [if_neg hv] at h; cases h; exact .inl (.same _)
    · exact .inr ⟨e, State.withVal_not_loadError h fun x h => State.withVal_not_loadError h fun y h => (by cases h), ht⟩
  | rmem a b =>
    rw [exec_rmem] at h
    rcases execute_next h with h | ⟨e, h, ht⟩
    · obtain ⟨r, rfl, h⟩ := withTarget_ok.1 h
      obtain ⟨x, hx, h⟩ := State.withVal_ok.1 h
      obtain ⟨w, v, _, _, rfl⟩ := State.loadInto_ok.1 h
      exact .inl (.write _ _ _ rfl rfl)
    · exact .inr ⟨e, withTarget_not_loadError h fun r h => State.withVal_not_loadError h fun x h =>
        State.loadInto_not_loadError h, ht⟩
  | wmem a b =>
    rw [exec_wmem] at h
    rcases execute_next h with h | ⟨e, h, ht⟩
    · obtain ⟨x, hx, h⟩ := State.withVal_ok.1 h
      obtain ⟨y, hy, h⟩ := State.withVal_ok.1 h
      cases h; exact .inl (.store _ _ _ _ hx hy)
    · exact .inr ⟨e, State.withVal_not_loadError h fun x h => State.withVal_not_loadError h fun y h => (by cases h), ht⟩
  | call a =>
    rw [exec_call] at h
    rcases execute_next h with h | ⟨e, h, ht⟩
    · obtain ⟨x, hx, h⟩ := State.withVal_ok.1 h
      obtain ⟨v, _, hf, rfl⟩ := State.callTo_ok.1 h
      exact .inl (.call _ _ _ hf)
    · exact .inr ⟨e, State.withVal_not_loadError h fun x h => State.callTo_not_loadError h, ht⟩
  | ret =>
    rw [exec_ret] at h; cases h
    refine .inl ?_
    show Effect (s.issue 0) .ret ((s.issue 0).settle s.pc (.ok (s.issue 0).returnOrStop))
    rw [State.settle_ok]
    rcases State.returnOrStop_cases (s.issue 0) with ⟨hs, h⟩ | ⟨v, rest, hs, h⟩ <;> rw [h]
    · exact .retEmpty hs
    · exact .ret _ _ hs
  | out a =>
    rw [exec_out] at h
    rcases execute_next h with h | ⟨e, h, ht⟩
    · obtain ⟨x, hx, h⟩ := State.withVal_ok.1 h
      cases h; exact .inl (.out _ _)
    · exact .inr ⟨e, State.withVal_not_loadError h fun x h => (by cases h), ht⟩
  | input a =>
    rw [exec_input] at h
    rcases execute_next h with h | ⟨e, h, ht⟩
    · obtain ⟨r, rfl, h⟩ := withTarget_ok.1 h
      cases h; exact .inl (.input _ _ (by simp [Instr.operands]))
    · exact .inr ⟨e, withTarget_not_loadError h fun r h => (by cases h), ht⟩
  | noop => rw [exec_noop] at h; cases h; exact .inl (.same _)

/-- No arm of `exec` stops: every instruction answers a next state, whatever the state and the operands. -/
theorem exec_next (i : Instr) (s : State) : ∃ t, exec i s = .next t := by
  cases i <;> exact ⟨_, rfl⟩

/-! ## Everything a step can do -/

/-- A fault of phases F1 and F2 is never a load error. -/
theorem State.fetch_not_loadError {s : State} {e : Trap} (h : s.fetch = .error e) : e.cause ≠ .loadError := by
  have words : ∀ n a, s.readWords a n = .error e → e.cause ≠ .loadError := by
    intro n
    induction n with
    | zero => intro a h; cases h
    | succ n ih =>
      intro a h
      unfold State.readWords at h
      split at h
      · rename_i hm; cases h; exact State.memRead_not_loadError hm
      split at h
      · rename_i hm; cases h; exact ih _ hm
      · cases h
  unfold State.fetch at h
  split at h
  · rename_i hm; cases h; exact State.memRead_not_loadError hm
  split at h
  · cases h; simp [Trap.cause]
  split at h
  · rename_i hm; cases h; exact words _ _ hm
  split at h
  · cases h
  · cases h; simp [Trap.cause]

/-- In a state in which the core can step, the step is a fetch and its instruction. -/
theorem step_of_ready {s : State} (h : s.ready) : step s = fetchExecute s := by
  obtain ⟨h1, h2, h3, h4⟩ := h
  simp [step, coreStep, h1, h2, h3, h4]

/-- A held `in` takes the events offered; the state is given in full, so that it may be an update of another. -/
theorem step_of_held {s : State} {p : PendingIn} (hr : s.run = .running) (hl : s.launch = .started) (hh : s.hold = some p)
    (hq : s.requests = []) (hv : s.live ≠ []) : step s = .next (s.serveLive p s.live) := by
  simp only [step, hq, coreStep, hr, hl, hh, resumeInput]

/-- Everything a step that answers can have been: a move of the host, a held `in` going on, a fault of the fetch, or the
instruction at the pc. -/
theorem step_cases {s t : State} (h : step s = .next t) :
    (∃ m ms, s.requests = m :: ms ∧ serveHost m { s with requests := ms } = .next t) ∨
      (∃ p e es, s.requests = [] ∧ s.run = .running ∧ s.launch = .started ∧ s.hold = some p ∧ s.live = e :: es ∧
        t = s.serveLive p s.live) ∨
      (∃ e : Trap, s.ready ∧ s.fetch = .error e ∧ t = s.raise e s.pc) ∨
      ∃ i, s.ready ∧ s.fetch = .ok i ∧ exec i s = .next t := by
  unfold step at h
  split at h
  · rename_i m ms hr; exact .inl ⟨m, ms, hr, h⟩
  rename_i hreq
  unfold coreStep at h
  split at h <;> try cases h
  · rename_i p hrun hl hh
    refine .inr (.inl ?_)
    unfold resumeInput at h
    split at h
    · cases h
    · rename_i es hne
      injection h with h
      cases hlv : s.live with
      | nil => exact absurd hlv hne
      | cons e es => exact ⟨p, e, es, hreq, hrun, hl, hh, rfl, by rw [← h, ← hlv]⟩
  · rename_i hrun hl hh
    refine .inr (.inr ?_)
    unfold fetchExecute at h
    split at h
    · rename_i e he; injection h with h; exact .inl ⟨e, ⟨hrun, hl, hh, hreq⟩, he, h.symm⟩
    · rename_i i hi; exact .inr ⟨i, ⟨hrun, hl, hh, hreq⟩, hi, h⟩

/-- Everything a move of the host can do, with the condition under which it is served (R258). -/
theorem serveHost_cases {m : HostMove} {s t : State} (h : serveHost m s = .next t) :
    (m = .rst ∧ t = s.resetBy) ∨
      (∃ image ending, m = .load image ending ∧ s.launch = .atReset ∧ s.run = .running ∧ t = s.load image ending) ∨
      (∃ lines, m = .script lines ∧ s.launch ≠ .started ∧ t = { s with script := lines }) ∨
      (m = .start ∧ s.run = .running ∧ s.launch ≠ .atReset ∧ t = { s with launch := .started }) ∨
      (m = .start ∧ s.run = .halted ∧ t = s) ∨
      (∃ e, m = .offer e ∧ t = { s with live := s.live ++ [e] }) ∨
      (m = .stopReq ∧ s.run = .running ∧ t = State.stop .operatorStop { s with hold := none }) ∨
      (m = .stopReq ∧ s.run = .halted ∧ t = s) := by
  cases m with
  | rst => injection h with h; exact .inl ⟨rfl, h.symm⟩
  | load image ending =>
    refine .inr (.inl ?_)
    simp only [serveHost] at h
    split at h
    · rename_i hc; injection h with h; exact ⟨_, _, rfl, hc.1, hc.2, h.symm⟩
    · cases h
  | script lines =>
    refine .inr (.inr (.inl ?_))
    simp only [serveHost] at h
    split at h
    · cases h
    · rename_i hc; injection h with h; exact ⟨_, rfl, hc, h.symm⟩
  | start =>
    simp only [serveHost] at h
    split at h
    · cases h
    · rename_i hc
      injection h with h
      cases hr : s.run with
      | running =>
        refine .inr (.inr (.inr (.inl ⟨rfl, rfl, fun hl => hc ⟨hl, hr⟩, ?_⟩)))
        simp only [State.startCore, hr] at h; exact h.symm
      | halted =>
        refine .inr (.inr (.inr (.inr (.inl ⟨rfl, rfl, ?_⟩))))
        simp only [State.startCore, hr] at h; exact h.symm
  | offer e =>
    injection h with h
    exact .inr (.inr (.inr (.inr (.inr (.inl ⟨e, rfl, h.symm⟩)))))
  | stopReq =>
    injection h with h
    cases hr : s.run with
    | running =>
      refine .inr (.inr (.inr (.inr (.inr (.inr (.inl ⟨rfl, rfl, ?_⟩))))))
      simp only [State.operatorStop, hr] at h; exact h.symm
    | halted =>
      refine .inr (.inr (.inr (.inr (.inr (.inr (.inr ⟨rfl, rfl, ?_⟩))))))
      simp only [State.operatorStop, hr] at h; exact h.symm

end Sys2Proof.Machine
end

