-- ==== Sys2Proof/Laws/Visible.lean ====
section
/-! SUPPORT. What a program can show (R33, R41): the state without the trace flag, the fault registers, the diagnostic channel
and the counter of free values. One lemma per shared operation: two states that agree on that part agree on it afterwards. -/

namespace Sys2Proof.Machine

/-- The state with the parts that no program and no `OUT` can show put to fixed values. -/
def State.visible (s : State) : State :=
  { s with fpc := 0, finfo := 0, trace := false, diag := [], free := 0 }

@[simp] theorem State.visible_control (s : State) (f : W16) (g : Code) (b : Bool) (d : List DiagRecord) (n : Nat) :
    State.visible { s with fpc := f, finfo := g, trace := b, diag := d, free := n } = s.visible := rfl

@[simp] theorem State.visible_traceStep (s : State) : s.traceStep.visible = s.visible := by
  unfold State.traceStep; split <;> rfl

@[simp] theorem State.visible_raise (s : State) (e : Trap) (ipc : W16) :
    (s.raise e ipc).visible = { s.visible with run := .halted, cause := e.cause } := rfl

@[simp] theorem State.visible_stop (s : State) (c : Cause) :
    (s.stop c).visible = { s.visible with run := .halted, cause := c } := rfl

@[simp] theorem State.visible_setReg (s : State) (i : R3) (v : V15) : (s.setReg i v).visible = s.visible.setReg i v := rfl

@[simp] theorem State.visible_memWrite (s : State) (a : A15) (w : W16) :
    (s.memWrite a w).visible = s.visible.memWrite a w := rfl

@[simp] theorem State.visible_emit (s : State) (c : V15) : (s.emit c).visible = s.visible.emit c := rfl

@[simp] theorem State.visible_jump (s : State) (t : V15) : (s.jump t).visible = s.visible.jump t := rfl

@[simp] theorem State.visible_advance (s : State) (n : Nat) : (s.advance n).visible = s.visible.advance n := rfl

@[simp] theorem State.visible_issue (s : State) (n : Nat) : (s.issue n).visible = s.visible.advance n := by
  simp [State.issue]

/-! The reads of a program see the visible part alone -/

@[simp] theorem State.val_visible (s : State) (o : Operand) : s.visible.val o = s.val o := by
  cases o <;> rfl

@[simp] theorem State.memRead_visible (s : State) (a : Nat) : s.visible.memRead a = s.memRead a := rfl

@[simp] theorem State.stackFull_visible (s : State) : s.visible.stackFull = s.stackFull := rfl

/-- Whatever is computed from the visible part is the same in two states that show the same. -/
theorem State.visible_congr {α : Type} (f : State → α) {s s' : State} (h : s.visible = s'.visible) :
    f s.visible = f s'.visible :=
  congrArg f h

/-! The input side -/

theorem State.visible_command (l : List Code) (s : State) : (s.command l).visible = (s.visible.command l).visible := by
  unfold State.command
  repeat' split
  all_goals rfl

theorem State.visible_deliver (p : PendingIn) (c : Code) (s : State) :
    (s.deliver p c).visible = (s.visible.deliver p c).visible := by
  unfold State.deliver
  cases toValue c <;> rfl

/-- The events are consumed alike, whatever the hidden part. -/
theorem State.visible_serveLive (es : List LiveEvent) {s s' : State} (p : PendingIn) (h : s.visible = s'.visible) :
    (s.serveLive p es).visible = (s'.serveLive p es).visible := by
  induction es generalizing s s' p with
  | nil => exact State.visible_congr (fun u : State => { u with live := [], hold := some p }) h
  | cons e es ih =>
    cases e with
    | eof => exact State.visible_congr (fun u : State => State.visible (State.stop .inputEof { u with live := es, hold := none })) h
    | char c =>
      have hp : s.params = s'.params := State.visible_congr (fun u : State => u.params) h
      have hs : s.isSentinel c = s'.isSentinel c := by simp only [State.isSentinel, hp]
      cases hl : p.line with
      | none =>
        simp only [State.serveLive, hl, hs]
        split
        · exact ih _ h
        · rw [State.visible_deliver, State.visible_deliver p c { s' with live := es, hold := none }]
          exact State.visible_congr (fun u : State => (State.deliver p c { u with live := es, hold := none }).visible) h
      | some l =>
        simp only [State.serveLive, hl]
        split
        · exact ih _ (by rw [State.visible_command, h, ← State.visible_command])
        · exact ih _ h

theorem State.visible_takeInput (p : PendingIn) {s s' : State} (h : s.visible = s'.visible) :
    (s.takeInput p).visible = (s'.takeInput p).visible := by
  have hc : s.cur = s'.cur := State.visible_congr (fun u : State => u.cur) h
  have hs : s.script = s'.script := State.visible_congr (fun u : State => u.script) h
  have hv : s.live = s'.live := State.visible_congr (fun u : State => u.live) h
  unfold State.takeInput
  rw [hc, hs]
  split
  · rename_i c cs lines _
    rw [State.visible_deliver, State.visible_deliver p c { s' with cur := cs, script := lines }]
    exact State.visible_congr (fun u : State => (State.deliver p c { u with cur := cs, script := lines }).visible) h
  · rw [show State.serveLive { s with cur := [], script := [] } p s.live =
      State.serveLive { s with cur := [], script := [] } p s'.live from congrArg _ hv]
    exact State.visible_serveLive _ _ (State.visible_congr (fun u : State => { u with cur := [], script := [] }) h)

/-! The frame of an instruction -/

/-- Two bodies end alike: both in states that show the same, or both in one fault. -/
def SameEnd : Except Trap State → Except Trap State → Prop
  | .ok t, .ok t' => t.visible = t'.visible
  | .error e, .error e' => e = e'
  | .ok _, .error _ => False
  | .error _, .ok _ => False

@[simp] theorem SameEnd_ok (t t' : State) : SameEnd (.ok t) (.ok t') ↔ t.visible = t'.visible := Iff.rfl

@[simp] theorem SameEnd_error (e e' : Trap) : SameEnd (.error e) (.error e') ↔ e = e' := Iff.rfl

theorem SameEnd.withVal {s s' : State} {o : Operand} {k k' : V15 → Except Trap State} (h : s.visible = s'.visible)
    (hk : ∀ v, SameEnd (k v) (k' v)) : SameEnd (s.withVal o k) (s'.withVal o k') := by
  have : s.val o = s'.val o := by rw [← State.val_visible, h, State.val_visible]
  unfold State.withVal
  rw [this]
  cases s'.val o with
  | ok v => exact hk v
  | error e => exact rfl

theorem SameEnd.withTarget {o : Operand} {k k' : R3 → Except Trap State} (hk : ∀ i, SameEnd (k i) (k' i)) :
    SameEnd (withTarget o k) (withTarget o k') := by
  cases o with
  | reg i => exact hk i
  | lit v => exact rfl
  | bad w => exact rfl

/-- Two runs of one instruction's frame show the same when its phases D and E do. -/
theorem execute_visible {n : Nat} {body body' : State → Except Trap State} {s s' t t' : State}
    (h : s.visible = s'.visible) (hb : SameEnd (body (s.issue n)) (body' (s'.issue n)))
    (ht : execute n body s = .next t) (ht' : execute n body' s' = .next t') : t.visible = t'.visible := by
  have hi : (s.issue n).visible = (s'.issue n).visible := by simp [h]
  unfold execute at ht ht'
  injection ht with ht
  injection ht' with ht'
  subst ht; subst ht'
  revert hb
  cases body (s.issue n) <;> cases body' (s'.issue n) <;> intro hb
  · subst hb
    simp only [State.settle_error, State.visible_raise, hi]
  · exact hb.elim
  · exact hb.elim
  · exact hb

end Sys2Proof.Machine
end

