-- ==== Sys2Proof/Tests/Slice0.lean ====
section
/-! SUPPORT. Tests: the well-formedness check refuses ill-formed terms; every constructor's decoding of a word written out from
the opcode table; one-step tests whose results are the spec's own vectors (95_test_vectors.md, cited by number); and, for every
statement with hypotheses, a witness that meets each of its clauses. -/

namespace Sys2Proof.Tests

open Sys2Proof.Machine Sys2Proof.Claims

/-! ## Helpers -/

/-- The launch state of an image given as words. -/
def start (words : List W16) : State := State.launchWith words [] [] Config.defaultParams

/-- The step answers a next state of which `p` holds. -/
def stepGives (s : State) (p : State → Bool) : Bool :=
  match step s with
  | .next t => p t
  | .fault _ => false
  | .refused _ => false

/-- The state shows a fault with this cause, `finfo`, `fpc` and pc. -/
def faultIs (c : Cause) (info : Code) (fpc pc : W16) (t : State) : Bool :=
  t.run == .halted && t.cause == c && t.finfo == info && t.fpc == fpc && t.pc == pc

/-- An empty machine that can step. -/
def bench : State := start []

/-- An `in` at address 0 that holds, with these live events. -/
def heldWith (params : Params) (line : Option (List Code)) (live : List LiveEvent) : State :=
  { State.launchWith [20, 0x8000] [] live params with
    pc := 2, hold := some { ipc := 0, target := 0, line := line } }

def sentinelParams : Params := { stackCap := none, sentinel := some 33, hackPatch := none }

def cappedParams : Params := { stackCap := some 1, sentinel := none, hackPatch := none }

def patchExample : HackPatch :=
  { addr1 := 100, word1 := 1, addr2 := 101, word2 := 2, addr3 := 102, word3 := 3, reg := 7, value := 25734 }

/-! ## Well-formedness refuses ill-formed terms (R95, R101) -/

theorem test_wellFormed_refuses_literal_target : (Instr.set (.lit 5) (.lit 3)).wellFormed = false := by decide
theorem test_wellFormed_refuses_bad_target : (Instr.pop (.bad 40000)).wellFormed = false := by decide
theorem test_wellFormed_refuses_bad_value : (Instr.add (.reg 0) (.bad 32776) (.lit 0)).wellFormed = false := by decide
theorem test_wellFormed_refuses_bad_third : (Instr.gt (.reg 0) (.lit 1) (.bad 65535)).wellFormed = false := by decide
theorem test_wellFormed_refuses_bad_jump : (Instr.jt (.lit 0) (.bad 32776)).wellFormed = false := by decide
theorem test_wellFormed_refuses_in_literal : (Instr.input (.lit 5)).wellFormed = false := by decide
theorem test_wellFormed_accepts : (Instr.wmem (.lit 7) (.reg 1)).wellFormed = true := by decide
theorem test_encodable_refuses_small_bad : (Instr.out (.bad 32775)).encodable = false := by decide
theorem test_encodable_accepts_bad : (Instr.out (.bad 32776)).encodable = true := by decide

/-! ## Decoding: a word written out from R91 and R94 for every constructor -/

theorem test_decode_halt : decode [0x0000] = .ok (.halt, []) := by decide
theorem test_decode_set : decode [0x0001, 0x8000, 0x0005] = .ok (.set (.reg 0) (.lit 5), []) := by decide
theorem test_decode_push : decode [0x0002, 0x8002] = .ok (.push (.reg 2), []) := by decide
theorem test_decode_pop : decode [0x0003, 0x8003] = .ok (.pop (.reg 3), []) := by decide
theorem test_decode_eq : decode [0x0004, 0x8000, 0x8001, 0x8002] = .ok (.eq (.reg 0) (.reg 1) (.reg 2), []) := by decide
theorem test_decode_gt : decode [0x0005, 0x8007, 0x7FFF, 0x0000] = .ok (.gt (.reg 7) (.lit 32767) (.lit 0), []) := by decide
theorem test_decode_jmp : decode [0x0006, 0x0003] = .ok (.jmp (.lit 3), []) := by decide
theorem test_decode_jt : decode [0x0007, 0x7FFF, 0x8001] = .ok (.jt (.lit 32767) (.reg 1), []) := by decide
theorem test_decode_jf : decode [0x0008, 0x0002, 0x0005] = .ok (.jf (.lit 2) (.lit 5), []) := by decide
theorem test_decode_add : decode [0x0009, 0x8000, 0x8001, 0x0004] = .ok (.add (.reg 0) (.reg 1) (.lit 4), []) := by decide
theorem test_decode_mult : decode [0x000A, 0x8000, 0x0002, 0x0003] = .ok (.mult (.reg 0) (.lit 2) (.lit 3), []) := by decide
theorem test_decode_mod : decode [0x000B, 0x8001, 0x8000, 0x000A] = .ok (.mod (.reg 1) (.reg 0) (.lit 10), []) := by decide
theorem test_decode_and : decode [0x000C, 0x8003, 0x8002, 0x00FF] = .ok (.and (.reg 3) (.reg 2) (.lit 255), []) := by decide
theorem test_decode_or : decode [0x000D, 0x8004, 0x8003, 0x0100] = .ok (.or (.reg 4) (.reg 3) (.lit 256), []) := by decide
theorem test_decode_not : decode [0x000E, 0x8005, 0x8004] = .ok (.not (.reg 5) (.reg 4), []) := by decide
theorem test_decode_rmem : decode [0x000F, 0x8000, 0x0007] = .ok (.rmem (.reg 0) (.lit 7), []) := by decide
theorem test_decode_wmem : decode [0x0010, 0x0007, 0x0059] = .ok (.wmem (.lit 7) (.lit 89), []) := by decide
theorem test_decode_call : decode [0x0011, 0x0006] = .ok (.call (.lit 6), []) := by decide
theorem test_decode_ret : decode [0x0012] = .ok (.ret, []) := by decide
theorem test_decode_out : decode [0x0013, 0x8007] = .ok (.out (.reg 7), []) := by decide
theorem test_decode_in : decode [0x0014, 0x8000] = .ok (.input (.reg 0), []) := by decide
theorem test_decode_noop : decode [0x0015] = .ok (.noop, []) := by decide
theorem test_decode_rejects_22 : decode [22] = .error (.unknownOpcode 22) := by decide
theorem test_decode_rejects_short : decode [9, 0x8000, 0x8001] = .error .truncated := by decide
theorem test_decode_bytes : decodeBytes [0x09, 0x00, 0x00, 0x80, 0x01, 0x80, 0x04, 0x00] =
    .ok (.add (.reg 0) (.reg 1) (.lit 4), []) := by decide
theorem test_decodeTableWord_add : decodeTableWord 64 0x0004800180000009 = some (.add (.reg 0) (.reg 1) (.lit 4)) := by decide
theorem test_decodeTableWord_short : decodeTableWord 16 0x0009 = some (.add (.lit 0) (.lit 0) (.lit 0)) := by decide
theorem test_text_add : (Instr.add (.reg 0) (.reg 1) (.lit 4)).text = some "add r0 r1 4" := by decide
theorem test_text_in : (Instr.input (.reg 7)).text.map (lineAt 2) = some "2: in r7" := by decide
theorem test_withFetchWord : stepGives (State.reset.withFetchWord 48 0x000580000001) (fun t => t.reg 0 == 5 && t.pc == 3) = true := by
  decide

/-! ## One step per instruction (95_test_vectors.md Part 2; the number is the vector's) -/

theorem test_40_1_halt : stepGives (start [0]) (fun t => t.run == .halted && t.cause == .haltInstr && t.pc == 1) = true := by decide
theorem test_40_3_set : stepGives ((start [1, 0x8001, 0x8000]).setReg 0 77) (fun t => t.reg 1 == 77 && t.reg 0 == 77 && t.pc == 3) = true := by decide
theorem test_40_5_set : stepGives (start [1, 5, 3]) (faultIs .badWriteTarget 5 0 3) = true := by decide
theorem test_40_8_push : stepGives { start [2, 32767] with stack := [1] } (fun t => t.stack == [32767, 1] && t.pc == 2) = true := by decide
theorem test_40_12_push : stepGives { State.launchWith [2, 2] [] [] cappedParams with stack := [1] }
    (fun t => faultIs .stackOverflow 2 0 2 t && t.stack == [1]) = true := by decide
theorem test_40_9_pop : stepGives { start [3, 0x8003] with stack := [11, 22] } (fun t => t.reg 3 == 11 && t.stack == [22]) = true := by decide
theorem test_40_11_pop : stepGives (start [3, 5]) (faultIs .badWriteTarget 5 0 2) = true := by decide
theorem test_41_3_eq : stepGives ((start [4, 0x8000, 0x8000, 0x8000]).setReg 0 777) (fun t => t.reg 0 == 1) = true := by decide
theorem test_41_2_eq : stepGives ((((start [4, 0x8000, 0x8001, 0x8002]).setReg 0 9).setReg 1 3).setReg 2 4) (fun t => t.reg 0 == 0) = true := by decide
theorem test_41_5_gt : stepGives (start [5, 0x8000, 32767, 0]) (fun t => t.reg 0 == 1) = true := by decide
theorem test_41_4_gt : stepGives ((start [5, 0x8000, 5, 5]).setReg 0 9) (fun t => t.reg 0 == 0 && t.pc == 4) = true := by decide
theorem test_42_2_jmp : stepGives ((start [6, 0x8000]).setReg 0 4) (fun t => t.pc == 4) = true := by decide
theorem test_42_6_jt : stepGives ((start [7, 32767, 0x8001]).setReg 1 5) (fun t => t.pc == 5) = true := by decide
theorem test_42_9_jt : stepGives (start [7, 0, 32776]) (faultIs .invalidNumber 32776 0 3) = true := by decide
theorem test_42_7_jf : stepGives (start [8, 0, 5]) (fun t => t.pc == 5) = true := by decide
theorem test_42_8_jf : stepGives (start [8, 2, 5]) (fun t => t.pc == 3) = true := by decide
theorem test_43_4_add : stepGives ((start [9, 0x8000, 0x8000, 0x8000]).setReg 0 20000) (fun t => t.reg 0 == 7232 && t.pc == 4) = true := by decide
theorem test_43_22_add : stepGives (start [9, 0x8000, 0x8001]) (faultIs .unmappedAccess 3 0 0) = true := by decide
theorem test_43_9_mult : stepGives (start [10, 0x8000, 181, 182]) (fun t => t.reg 0 == 174) = true := by decide
theorem test_43_7_mult : stepGives (start [10, 0x8000, 32767, 32767]) (fun t => t.reg 0 == 1) = true := by decide
theorem test_43_11_mod : stepGives (start [11, 0x8000, 3, 7]) (fun t => t.reg 0 == 3) = true := by decide
theorem test_43_14_mod : stepGives (start [11, 0x8000, 7, 0]) (faultIs .divideByZero 7 0 4) = true := by decide
theorem test_43_17_and : stepGives (start [12, 0x8000, 32527, 4080]) (fun t => t.reg 0 == 3840) = true := by decide
theorem test_43_18_or : stepGives (start [13, 0x8000, 32527, 4080]) (fun t => t.reg 0 == 32767) = true := by decide
theorem test_43_21_not : stepGives (start [14, 0x8000, 21845]) (fun t => t.reg 0 == 10922 && t.pc == 3) = true := by decide
theorem test_44_1_rmem : stepGives (start [15, 0x8000, 4, 0, 1234]) (fun t => t.reg 0 == 1234) = true := by decide
theorem test_44_4_rmem : stepGives (start [15, 0x8000, 1]) (faultIs .invalidNumber 32768 0 3) = true := by decide
theorem test_44_7_wmem : stepGives (((start [16, 0x8000, 0x8001]).setReg 0 30000).setReg 1 32767)
    (fun t => t.mem.read 30000 == some 32767 && t.mem.wf) = true := by decide
theorem test_44_11_wmem : stepGives (start [16, 0x8000, 5]) (fun t => t.mem.read 0 == some 5 && t.pc == 3) = true := by decide
theorem test_45_1_call : stepGives (start [17, 4]) (fun t => t.stack == [2] && t.pc == 4) = true := by decide
theorem test_45_6_call : stepGives { bench with mem := [(32766, 17), (32767, 0)], pc := 32766 }
    (fun t => faultIs .invalidNumber 32768 32766 32768 t && t.stack == []) = true := by decide
theorem test_45_3_ret : stepGives { start [18] with stack := [3, 9] } (fun t => t.stack == [9] && t.pc == 3) = true := by decide
theorem test_45_4_ret : stepGives (start [18]) (fun t => t.cause == .retEmpty && t.pc == 1) = true := by decide
theorem test_46_1_out : stepGives (start [19, 300]) (fun t => t.out == [300] && t.pc == 2) = true := by decide
theorem test_46_5_in : stepGives (State.launchWith [20, 0x8000] [[104, 105, 10]] [] Config.defaultParams)
    (fun t => t.reg 0 == 104 && t.cur == [105, 10] && t.script == [] && t.out == [104]) = true := by decide
theorem test_46_8_in : stepGives (State.launchWith [20, 0x8000] [] [.eof] Config.defaultParams)
    (fun t => t.cause == .inputEof && t.pc == 2 && t.out == []) = true := by decide
theorem test_46_4_noop : stepGives (start [21]) (fun t => t.pc == 1 && t.run == .running) = true := by decide

/-! ## The console, the fetch, the loader (95_test_vectors.md 46.20 to 46.26, DF, LD) -/

theorem test_46_20_debug : stepGives (State.launchWith [20, 0x8000, 0] []
    ([.char 33, .char 100, .char 101, .char 98] ++ [.char 117, .char 103, .char 10, .char 120]) sentinelParams)
    (fun t => t.trace && t.reg 0 == 120 && t.out == [120] && t.diag == []) = true := by decide
theorem test_46_22_hack : stepGives (State.launchWith [20, 0x8000, 0] []
    ([.char 33, .char 104, .char 97, .char 99] ++ [.char 107, .char 10, .char 120])
    { sentinelParams with hackPatch := some patchExample })
    (fun t => t.mem.read 102 == some 3 && t.reg 7 == 25734 && t.reg 0 == 120) = true := by decide
theorem test_46_25_console_eof : stepGives (State.launchWith [20, 0x8000, 0] [] [.char 33, .char 100, .char 117, .eof] sentinelParams)
    (fun t => t.cause == .inputEof && t.reg 0 == 0 && t.out == []) = true := by decide
theorem test_46_26_console_holds : stepGives (State.launchWith [20, 0x8000, 0] [] [.char 33, .char 100, .char 117] sentinelParams)
    (fun t => t.hold == some { ipc := 0, target := 0, line := some [100, 117] }) = true := by decide
/-- The line `debug` of 46.20 offered in two parts: the console goes on with the part it has read. -/
theorem test_46_20_in_parts : stepGives (heldWith sentinelParams (some [100, 101, 98]) [.char 117, .char 103, .char 10, .char 120])
    (fun t => t.trace && t.reg 0 == 120 && t.out == [120] && t.hold == none) = true := by decide
theorem test_DF_2 : stepGives (start [40000]) (faultIs .unknownOpcode 40000 0 0) = true := by decide
theorem test_DF_5 : stepGives { bench with mem := [(32767, 21)], pc := 32767 } (fun t => t.pc == 32768) = true := by decide
theorem test_DF_6 : stepGives { bench with mem := [(32766, 9), (32767, 0x8000)], pc := 32766 }
    (faultIs .unmappedAccess 32768 32766 32766) = true := by decide
theorem test_LD_2 : stepGives { State.reset with requests := [.load [0x13, 0x00, 0x41, 0x00, 0x00, 0x00] .endOfStream] }
    (fun t => t.mem == [(0, 19), (1, 65), (2, 0)] && t.launch == .loaded) = true := by decide
theorem test_LD_4 : stepGives { State.reset with requests := [.load [0x13, 0x00, 0x41] .endOfStream] }
    (fun t => t.run == .halted && t.cause == .loadError && t.finfo == 3) = true := by decide
theorem test_memory_canonical : Memory.insert (Memory.insert (Memory.insert [] 7 1) 3 2) 7 5 = [(3, 2), (7, 5)] := by decide

/-! ## Witnesses: for every statement with hypotheses, values that meet them, clause by clause, at the boundaries -/

theorem witness_DecodeOfEncode : (Instr.gt (.reg 7) (.lit 32767) (.bad 32776)).encodable = true := by decide

theorem witness_EncodeOfDecode :
    decode [5, 0x8007, 0x7FFF, 0x8008, 9] = .ok (.gt (.reg 7) (.lit 32767) (.bad 32776), [9]) := by decide

theorem witness_OpcodeWordFixesLength :
    (decode (21 :: [7]) = .ok (.noop, [7]) ∧ opcodeArity 21 = some 0) ∧
      decode (9 :: [0x8000, 1, 2]) = .ok (.add (.reg 0) (.lit 1) (.lit 2), []) ∧ opcodeArity 9 = some 3 := by decide

theorem witness_OperandWordClasses :
    isLit 0 = true ∧ isLit 32767 = true ∧ isReg 32768 = true ∧ isReg 32775 = true ∧ isBad 32776 = true ∧ isBad 65535 = true := by
  decide

theorem witness_ValueOperandResolution :
    (32767 : W16).toNat ≤ 32767 ∧ (32768 : W16).toNat = 32768 + (0 : R3).val ∧ (32775 : W16).toNat = 32768 + (7 : R3).val ∧
      32776 ≤ (32776 : W16).toNat := by decide

theorem witness_WriteTargetResolution :
    (32768 : W16).toNat = 32768 + (0 : R3).val ∧ (32775 : W16).toNat = 32768 + (7 : R3).val ∧
      32776 ≤ (32776 : W16).toNat ∧ (32767 : W16).toNat ≤ 32767 := by decide

theorem witness_TraceRecordPerStep : bench.trace = false ∧ { bench with trace := true }.trace = true := by decide

theorem witness_HaltStopsTheMachine : bench.requests = [] ∧ ∃ t, exec .halt bench = .next t := ⟨rfl, _, rfl⟩

theorem witness_SetWritesRegister : bench.val (.lit 32767) = .ok 32767 ∧ bench.val (.reg 7) = .ok 0 := by decide

theorem witness_PushStoresOnStack :
    (bench.val (.lit 0) = .ok 0 ∧ bench.params.stackCap ≠ some bench.stack.length) ∧
      (∀ s, s = { bench with params := cappedParams } →
        s.val (.reg 0) = .ok 0 ∧ s.params.stackCap ≠ some s.stack.length) ∧
      ∀ s, s = { bench with params := cappedParams, stack := [5] } →
        s.val (.lit 7) = .ok 7 ∧ s.params.stackCap = some s.stack.length := by
  refine ⟨by decide, ?_, ?_⟩ <;> rintro _ rfl <;> decide

theorem witness_PopTakesTopOfStack : { bench with stack := [11, 22] }.stack = 11 :: [22] ∧ bench.stack = [] := by decide

theorem witness_EqWritesTruthValue : bench.val (.lit 5) = .ok 5 ∧ bench.val (.reg 0) = .ok 0 := by decide

theorem witness_GtWritesTruthValue : bench.val (.lit 32767) = .ok 32767 ∧ bench.val (.lit 0) = .ok 0 := by decide

theorem witness_JmpSetsPc : bench.val (.lit 32767) = .ok 32767 := by decide

theorem witness_JtJumpsOnNonZero : bench.val (.lit 1) = .ok 1 ∧ bench.val (.lit 0) = .ok 0 ∧ bench.val (.lit 5) = .ok 5 := by decide

theorem witness_JfJumpsOnZero : bench.val (.lit 0) = .ok 0 ∧ bench.val (.lit 1) = .ok 1 ∧ bench.val (.lit 5) = .ok 5 := by decide

theorem witness_AddWrapsModulo32768 : bench.val (.lit 32767) = .ok 32767 ∧ bench.val (.lit 2) = .ok 2 := by decide

theorem witness_MultWrapsModulo32768 : bench.val (.lit 181) = .ok 181 ∧ bench.val (.lit 182) = .ok 182 := by decide

theorem witness_ModIsRemainderOrDivideByZero :
    (bench.val (.lit 7) = .ok 7 ∧ bench.val (.lit 1) = .ok 1 ∧ (1 : V15).toNat ≠ 0) ∧
      bench.val (.lit 32767) = .ok 32767 ∧ bench.val (.reg 3) = .ok 0 := by decide

theorem witness_AndIsBitwise : bench.val (.lit 32527) = .ok 32527 ∧ bench.val (.lit 4080) = .ok 4080 := by decide

theorem witness_OrIsBitwise : bench.val (.lit 32527) = .ok 32527 ∧ bench.val (.lit 4080) = .ok 4080 := by decide

theorem witness_NotComplements15Bits : bench.val (.lit 21845) = .ok 21845 := by decide

/-- Cells 0 to 2: the largest word a register holds, the smallest it does not, and no word. -/
theorem witness_RmemReadsCell :
    ((start [32767, 32768]).val (.lit 0) = .ok 0 ∧ (start [32767, 32768]).mem.read 0 = some 32767 ∧ (32767 : W16).toNat ≤ 32767) ∧
      ((start [32767, 32768]).val (.lit 2) = .ok 2 ∧ (start [32767, 32768]).mem.read 2 = none) ∧
      (start [32767, 32768]).val (.lit 1) = .ok 1 ∧ (start [32767, 32768]).mem.read 1 = some 32768 ∧
        32767 < (32768 : W16).toNat := by decide

theorem witness_WmemWritesCell :
    bench.val (.lit 32767) = .ok 32767 ∧ bench.val (.lit 1) = .ok 1 ∧ 32766 ≠ (32767 : V15).toNat := by decide

theorem witness_CallPushesReturnAddress :
    (∀ s, s = { bench with pc := 32765 } →
      s.val (.lit 6) = .ok 6 ∧ s.pc.toNat + 2 ≤ 32767 ∧ s.params.stackCap ≠ some s.stack.length) ∧
      (∀ s, s = { bench with pc := 32766 } → s.val (.lit 6) = .ok 6 ∧ s.pc.toNat = 32766) ∧
      ∀ s, s = { bench with pc := 32765, params := cappedParams, stack := [5] } →
        s.val (.lit 6) = .ok 6 ∧ s.pc.toNat + 2 ≤ 32767 ∧ s.params.stackCap = some s.stack.length := by
  refine ⟨?_, ?_, ?_⟩ <;> rintro _ rfl <;> decide

theorem witness_RetPopsOrStops : { bench with stack := [3, 9] }.stack = 3 :: [9] ∧ bench.stack = [] := by decide

theorem witness_OutEmitsCode : bench.val (.lit 300) = .ok 300 := by decide

theorem witness_input_scripted :
    (NextScripted { bench with cur := [32767] } 32767 [] [] ∧ (32767 : Code).toNat ≤ 32767) ∧
      (NextScripted { bench with script := [[], [97, 10], [98]] } 97 [10] [[98]]) ∧
      NextScripted { bench with cur := [32768] } 32768 [] [] ∧ 32767 < (32768 : Code).toNat :=
  ⟨⟨.inl ⟨rfl, rfl⟩, by decide⟩, .inr ⟨rfl, 1, rfl⟩, .inl ⟨rfl, rfl⟩, by decide⟩

/-- A sentinel is set and the character offered is the code after it. -/
theorem witness_input_live :
    ScriptSpent { bench with script := [[]] } ∧ ScriptSpent bench ∧
      NotSentinel { bench with params := sentinelParams } 34 ∧ (34 : Code).toNat ≤ 32767 ∧
      NotSentinel { bench with params := sentinelParams } 32768 ∧ 32767 < (32768 : Code).toNat := by
  refine ⟨⟨rfl, by simp⟩, ⟨rfl, by simp [bench, start, State.launchWith]⟩, ?_, by decide, ?_, by decide⟩ <;>
    (intro b hb; obtain rfl : 33 = b := by simpa [sentinelParams] using hb
     decide)

theorem witness_InputReadsOneCharacter_live :
    { bench with live := [.char 34] }.live = .char 34 :: [] ∧ { bench with live := [.eof] }.live = .eof :: [] ∧
      bench.live = [] := ⟨rfl, rfl, rfl⟩

theorem witness_EndOfLiveInputStops :
    (ScriptSpent { bench with live := [.eof] } ∧ { bench with live := [.eof] }.live = .eof :: []) ∧
      held (heldWith sentinelParams (some [100, 117]) [.eof]) { ipc := 0, target := 0, line := some [100, 117] } ∧
      (heldWith sentinelParams (some [100, 117]) [.eof]).live = .eof :: [] :=
  ⟨⟨⟨rfl, by simp [bench, start, State.launchWith]⟩, rfl⟩, ⟨rfl, rfl, rfl, rfl⟩, rfl⟩

theorem witness_InputHoldsUntilOffered :
    (held (heldWith sentinelParams none []) { ipc := 0, target := 0, line := none } ∧
      (heldWith sentinelParams none []).live = []) ∧
    { bench with requests := [.offer .eof] }.requests = .offer .eof :: [] ∧
    held (heldWith Config.defaultParams none [.char 32767]) { ipc := 0, target := 0, line := none } ∧
      NotSentinel (heldWith Config.defaultParams none [.char 32767]) 32767 ∧ (32767 : Code).toNat ≤ 32767 :=
  ⟨⟨⟨rfl, rfl, rfl, rfl⟩, rfl⟩, rfl, ⟨rfl, rfl, rfl, rfl⟩, (fun _ hb => by cases hb), by decide⟩

/-- Cut inside a command line (the `in` holds), and after the delivered character (the `in` has ended); and a held `in` with
part of a line read. -/
theorem witness_WaitingMakesNoDifference :
    (bench.ready ∧ ([.eof] : List LiveEvent) ≠ [] ∧
      (∃ t, exec (.input (.reg 0)) { bench with params := sentinelParams, live := [.char 33, .char 100] } = .next t ∧
        t.hold ≠ none) ∧
      ∃ t, exec (.input (.reg 0)) { bench with live := [.char 120] } = .next t ∧ t.hold = none) ∧
    held (heldWith sentinelParams (some [100]) []) { ipc := 0, target := 0, line := some [100] } ∧
      (∃ t, step { heldWith sentinelParams (some [100]) [] with live := [.char 117] } = .next t ∧ t.hold ≠ none) ∧
      ∃ t, step { heldWith sentinelParams (some [100]) [] with live := [.eof] } = .next t ∧ t.hold = none :=
  ⟨⟨⟨rfl, rfl, rfl, rfl⟩, by simp, ⟨_, rfl, by decide⟩, _, rfl, by decide⟩, ⟨rfl, rfl, rfl, rfl⟩,
    ⟨_, rfl, by decide⟩, _, rfl, by decide⟩

theorem witness_ScriptIsOneQueue :
    (∀ s, s = { bench with script := [[], [32767], [98]] } →
      s.cur ++ s.script.flatten = 32767 :: [98] ∧ (32767 : Code).toNat ≤ 32767) ∧
      bench.cur ++ bench.script.flatten = [] := by
  refine ⟨?_, by decide⟩
  rintro _ rfl; decide

theorem witness_ConsoleCommandEffects :
    { bench with params := { sentinelParams with hackPatch := some patchExample } }.params.hackPatch = some patchExample ∧
      ([102, 111, 111] : List Code) ≠ [100, 117, 109, 112] ∧ ([102, 111, 111] : List Code) ≠ [100, 101, 98, 117, 103] ∧
      ([102, 111, 111] : List Code) ≠ [110, 111, 100, 101, 98, 117, 103] ∧ ([102, 111, 111] : List Code) ≠ [104, 97, 99, 107] := by
  refine ⟨rfl, by decide, by decide, by decide, by decide⟩

/-- `hack` after the sentinel, the empty line, and `dump` of which the console has read `du`; each with more to come, with nothing
after it, without its end, and cut by the end of input. -/
theorem witness_CommandText :
    CommandText { bench with params := sentinelParams } { ipc := 0, target := 0, line := none } [104, 97, 99, 107]
      [.char 33, .char 104, .char 97, .char 99, .char 107] ∧
    CommandText { bench with params := sentinelParams } { ipc := 0, target := 0, line := none } [] [.char 33] ∧
    CommandText bench { ipc := 0, target := 0, line := some [100, 117] } [100, 117, 109, 112] [.char 109, .char 112] ∧
    CommandText bench { ipc := 0, target := 0, line := some [100, 117] } [100, 117] [] :=
  ⟨.inl ⟨rfl, 33, rfl, by decide, rfl⟩, .inl ⟨rfl, 33, rfl, by decide, rfl⟩,
    .inr ⟨[100, 117], [109, 112], rfl, rfl, by decide, rfl⟩, .inr ⟨[100, 117], [], rfl, rfl, by decide, rfl⟩⟩

theorem witness_ConsoleRunsOneLine :
    (∀ live, held (heldWith sentinelParams (some [100, 117]) live) { ipc := 0, target := 0, line := some [100, 117] } ∧
      CommandText (heldWith sentinelParams (some [100, 117]) live) { ipc := 0, target := 0, line := some [100, 117] }
        [100, 117, 109, 112] [.char 109, .char 112]) ∧
    (∀ live, held (heldWith sentinelParams none live) { ipc := 0, target := 0, line := none } ∧
      CommandText (heldWith sentinelParams none live) { ipc := 0, target := 0, line := none } [] [.char 33]) ∧
    (heldWith sentinelParams none [.char 33, .char 10, .eof]).live = [.char 33] ++ .char 10 :: [.eof] ∧
    (heldWith sentinelParams none [.char 33, .char 10]).live = [.char 33] ++ [.char 10] ∧
    (heldWith sentinelParams none [.char 33]).live = [.char 33] ∧ ([.char 33] : List LiveEvent) ≠ [] ∧
    (heldWith sentinelParams none [.char 33, .eof]).live = [.char 33] ++ .eof :: [] :=
  ⟨fun _ => ⟨⟨rfl, rfl, rfl, rfl⟩, .inr ⟨[100, 117], [109, 112], rfl, rfl, by decide, rfl⟩⟩,
    fun _ => ⟨⟨rfl, rfl, rfl, rfl⟩, .inl ⟨rfl, 33, rfl, by decide, rfl⟩⟩, rfl, rfl, rfl, by simp, rfl⟩

/-- Vector 46.25: sentinel, `du`, end of input, in one step; and the other three clauses. -/
theorem witness_InputRunsTheConsole :
    (∀ live s, s = { bench with params := sentinelParams, live := live } →
      s.ready ∧ ScriptSpent s ∧
        CommandText s { ipc := s.pc, target := 0, line := none } [100, 117] [.char 33, .char 100, .char 117]) ∧
    ([.char 33, .char 100, .char 117, .eof] : List LiveEvent) = [.char 33, .char 100, .char 117] ++ .eof :: [] ∧
    ([.char 33, .char 100, .char 117, .char 10] : List LiveEvent) = [.char 33, .char 100, .char 117] ++ [.char 10] ∧
    ([.char 33, .char 100, .char 117, .char 10, .eof] : List LiveEvent) =
      [.char 33, .char 100, .char 117] ++ .char 10 :: [.eof] ∧ ([.eof] : List LiveEvent) ≠ [] := by
  refine ⟨?_, rfl, rfl, rfl, by simp⟩
  rintro live _ rfl
  exact ⟨⟨rfl, rfl, rfl, rfl⟩, ⟨rfl, by simp [bench, start, State.launchWith]⟩, .inl ⟨rfl, 33, rfl, by decide, rfl⟩⟩

/-- A one-word instruction in the last cell. -/
theorem witness_StepRunsInstructionAtPc :
    ∃ s : State, s.ready ∧ Instr.noop.encodable = true ∧ s.pc.toNat + (encode .noop).length ≤ 32768 ∧
      ∀ k w, (encode .noop)[k]? = some w → s.mem.read (s.pc.toNat + k) = some w := by
  refine ⟨{ bench with mem := [(32767, 21)], pc := 32767 }, ⟨rfl, rfl, rfl, rfl⟩, by decide, by decide, ?_⟩
  intro k w hk
  cases k with
  | zero => exact hk
  | succ k => simp [encode] at hk

theorem witness_UnreadableFetchFaults :
    (∃ s : State, s.ready ∧ 32767 < s.pc.toNat) ∧ (∃ s : State, s.ready ∧ s.mem.read s.pc.toNat = none) ∧
    (∃ s : State, s.ready ∧ s.pc.toNat ≤ 32767 ∧ s.mem.read s.pc.toNat = some 9 ∧ opcodeArity 9 = some 3 ∧
      (∀ j, 1 ≤ j → j < 2 → s.pc.toNat + j ≤ 32767 ∧ s.mem.read (s.pc.toNat + j) ≠ none) ∧ 32767 < s.pc.toNat + 2) ∧
    ∃ s : State, s.ready ∧ s.mem.read s.pc.toNat = some 9 ∧
      (∀ j, 1 ≤ j → j < 3 → s.pc.toNat + j ≤ 32767 ∧ s.mem.read (s.pc.toNat + j) ≠ none) ∧
      s.mem.read (s.pc.toNat + 3) = none := by
  refine ⟨⟨{ bench with pc := 32768 }, ⟨rfl, rfl, rfl, rfl⟩, by decide⟩, ⟨bench, ⟨rfl, rfl, rfl, rfl⟩, rfl⟩,
    ⟨{ bench with mem := [(32766, 9), (32767, 0x8000)], pc := 32766 }, ⟨rfl, rfl, rfl, rfl⟩, by decide, rfl, by decide, ?_, by decide⟩,
    ⟨start [9, 0x8000, 0x8001], ⟨rfl, rfl, rfl, rfl⟩, rfl, ?_, rfl⟩⟩
  · intro j h1 h2
    obtain rfl : j = 1 := by omega
    decide
  · intro j h1 h2
    obtain rfl | rfl : j = 1 ∨ j = 2 := by omega
    all_goals decide

theorem witness_UnknownOpcodeFaults :
    (start [22]).ready ∧ (start [22]).pc.toNat ≤ 32767 ∧ (start [22]).mem.read (start [22]).pc.toNat = some 22 ∧
      21 < (22 : W16).toNat :=
  ⟨⟨rfl, rfl, rfl, rfl⟩, by decide, rfl, by decide⟩

theorem witness_FourOutcomesOfAStep : bench.ready ∧ bench.cause = .none := ⟨⟨rfl, rfl, rfl, rfl⟩, rfl⟩

def halted : State := { bench with run := .halted, cause := .haltInstr }

theorem witness_HaltedIsTerminal :
    (halted.run = .halted ∧ halted.requests = []) ∧
      ∃ t, step { halted with requests := [.offer .eof] } = .next t ∧ ∀ ms, [HostMove.offer .eof] ≠ .rst :: ms :=
  ⟨⟨rfl, rfl⟩, _, rfl, by simp⟩

theorem witness_ResetValues :
    (∃ t, { halted with requests := [.rst] }.requests = .rst :: [] ∧ step { halted with requests := [.rst] } = .next t ∧
      t.run = .running) ∧
      State.reset.run = .running ∧ State.reset.launch ≠ .started ∧ State.reset.requests = [] :=
  ⟨⟨_, rfl, rfl, rfl⟩, rfl, by decide, rfl⟩

theorem witness_LoaderWritesImage :
    (∃ s : State, s.requests = .load [0x15, 0x00] .endOfStream :: [] ∧ s.launch = .atReset ∧ s.run = .running ∧
      ([0x15, 0x00] : List Byte).length = 2 * 1) ∧
    ∃ image : List Byte, ∃ s : State, s.requests = .load image .endOfStream :: [] ∧ s.launch = .atReset ∧
      s.run = .running ∧ image.length = 2 * 32768 :=
  ⟨⟨{ State.reset with requests := [.load [0x15, 0x00] .endOfStream] }, rfl, rfl, rfl, rfl⟩,
    List.replicate (2 * 32768) 0,
    { State.reset with requests := [.load (List.replicate (2 * 32768) 0) .endOfStream] }, rfl, rfl, rfl,
    List.length_replicate⟩

theorem witness_LoadErrorsHalt :
    (∃ s : State, s.requests = .load [0x13, 0x00, 0x41] .endOfStream :: [.start] ∧ s.launch = .atReset ∧ s.run = .running ∧
      ([0x13, 0x00, 0x41] : List Byte).length % 2 = 1) ∧
    (∃ s : State, s.requests = .load [] .abort :: [] ∧ s.launch = .atReset ∧ s.run = .running) ∧
    ∃ image : List Byte, ∃ s : State, s.requests = .load image .endOfStream :: [] ∧ s.launch = .atReset ∧
      s.run = .running ∧ 65536 < image.length ∧ image.length < 2097152 :=
  ⟨⟨{ State.reset with requests := [.load [0x13, 0x00, 0x41] .endOfStream, .start] }, rfl, rfl, rfl, rfl⟩,
    ⟨{ State.reset with requests := [.load [] .abort] }, rfl, rfl, rfl⟩, List.replicate 65538 0,
    { State.reset with requests := [.load (List.replicate 65538 0) .endOfStream] }, rfl, rfl, rfl, by
      rw [List.length_replicate]; decide⟩

theorem witness_StartLaunchesTheCore :
    (∃ s : State, s.requests = .start :: [] ∧ s.run = .running ∧ s.launch = .loaded) ∧
      ∃ s : State, s.requests = .start :: [] ∧ s.run = .halted :=
  ⟨⟨{ State.reset with launch := .loaded, requests := [.start] }, rfl, rfl, rfl⟩,
    { halted with requests := [.start] }, rfl, rfl⟩

theorem witness_OperatorStopEndsTheRun :
    (∃ s : State, s.requests = .stopReq :: [] ∧ s.run = .running ∧ s.hold.isSome = true) ∧
      ∃ s : State, s.requests = .stopReq :: [] ∧ s.run = .halted :=
  ⟨⟨{ heldWith sentinelParams none [] with requests := [.stopReq] }, rfl, rfl, rfl⟩,
    { halted with requests := [.stopReq] }, rfl, rfl⟩

theorem witness_HostProtocolIsKept :
    (∃ s : State, s.requests = .script [[97, 10]] :: [] ∧ s.launch ≠ .started) ∧
      (∃ s : State, s.requests = .script [[97, 10]] :: [] ∧ s.launch = .started) ∧
      (∃ s : State, s.requests = .load [] .endOfStream :: [] ∧ s.launch ≠ .atReset) ∧
      ∃ s : State, s.requests = .start :: [] ∧ s.launch = .atReset ∧ s.run = .running :=
  ⟨⟨{ State.reset with requests := [.script [[97, 10]]] }, rfl, by decide⟩,
    ⟨{ bench with requests := [.script [[97, 10]]] }, rfl, rfl⟩,
    ⟨{ bench with requests := [.load [] .endOfStream] }, rfl, by decide⟩,
    { State.reset with requests := [.start] }, rfl, rfl, rfl⟩

theorem witness_OnlyTheTargetRegisterChanges :
    ∃ t, exec (.set (.reg 0) (.lit 5)) bench = .next t ∧ t.reg 0 ≠ bench.reg 0 := ⟨_, rfl, by decide⟩

theorem witness_OnlyWmemChangesMemory :
    ∃ t, exec (.wmem (.lit 32767) (.lit 5)) bench = .next t ∧ t.mem.read 32767 ≠ bench.mem.read 32767 := ⟨_, rfl, by decide⟩

theorem witness_OnlyStackInstructionsMoveTheStack :
    ∃ t, exec (.call (.lit 5)) bench = .next t ∧ t.stack ≠ bench.stack := ⟨_, rfl, by decide⟩

theorem witness_OutputIsAppendOnly :
    (∃ t, step (start [19, 300]) = .next t ∧ ∀ ms, (start [19, 300]).requests ≠ .rst :: ms) ∧
      ∃ t, exec (.out (.lit 300)) bench = .next t ∧ t.out ≠ bench.out :=
  ⟨⟨_, rfl, by simp [start, State.launchWith, State.reset]⟩, _, rfl, by decide⟩

theorem witness_ScriptIsDrainedInOrder :
    (∃ t, exec .noop { bench with cur := [97] } = .next t ∧ ∀ a, Instr.noop ≠ .input a) ∧
      ∃ t, exec (.input (.reg 0)) { bench with cur := [97] } = .next t ∧ t.cur = [] :=
  ⟨⟨_, rfl, by simp⟩, _, rfl, rfl⟩

theorem witness_ControlStateIsInvisible :
    ∃ t t', exec (.out (.lit 65)) bench = .next t ∧
      exec (.out (.lit 65)) { bench with trace := true, fpc := 7, finfo := 9 } = .next t' := ⟨_, _, rfl, rfl⟩

theorem witness_CallThenRetComesBack :
    ∃ t u, exec (.call (.lit 3)) bench = .next t ∧ t.run = .running ∧ exec .ret t = .next u :=
  ⟨_, _, rfl, by decide, rfl⟩

theorem witness_NotIsSelfInverse :
    ∃ t u, bench.val (.lit 12345) = .ok 12345 ∧ exec (.not (.reg 0) (.lit 12345)) bench = .next t ∧
      exec (.not (.reg 1) (.reg 0)) t = .next u := ⟨_, _, rfl, rfl, rfl⟩

/-- `wmem 3 21` writes a `noop` over the word the next step fetches (vector 44.10). -/
theorem witness_StoredInstructionIsFetchedNext :
    ∃ t, bench.val (.lit 3) = .ok 3 ∧ bench.val (.lit 21) = .ok 21 ∧ encode .noop = [(21 : V15).setWidth 16] ∧
      exec (.wmem (.lit 3) (.lit 21)) bench = .next t ∧ t.ready ∧ t.pc.toNat = (3 : V15).toNat :=
  ⟨_, rfl, rfl, rfl, rfl, ⟨rfl, rfl, rfl, rfl⟩, rfl⟩

theorem witness_StepKeepsInvariant : (start [21]).Inv ∧ ∃ t, step (start [21]) = .next t :=
  ⟨⟨by decide, by decide, by decide, by simp [start, State.launchWith, Config.defaultParams],
    by simp [start, State.launchWith, State.reset], by simp [start, State.launchWith], by decide⟩, _, rfl⟩

end Sys2Proof.Tests
end

/-! PROOFS. The three classes of an operand word (R11, R91): by number, by bits, and by the operand each stands for. -/

namespace Sys2Proof

/-! ## The classes as ranges of numbers -/

theorem isLit_iff (w : W16) : isLit w = true ↔ w.toNat ≤ 32767 := decide_eq_true_iff

theorem isReg_iff (w : W16) : isReg w = true ↔ 32768 ≤ w.toNat ∧ w.toNat ≤ 32775 := decide_eq_true_iff

theorem isBad_iff (w : W16) : isBad w = true ↔ 32776 ≤ w.toNat := decide_eq_true_iff

/-! ## The classes as bit patterns -/

theorem bit15_set_iff (w : W16) : w.getLsbD 15 = true ↔ 32768 ≤ w.toNat := by
  have hmsb : w.getLsbD 15 = w.msb := (BitVec.msb_eq_getLsbD_last w).symm
  rw [hmsb, BitVec.msb_eq_decide, decide_eq_true_iff]

theorem bit15_clear_iff (w : W16) : w.getLsbD 15 = false ↔ w.toNat ≤ 32767 := by
  rw [← Bool.not_eq_true, bit15_set_iff]
  omega

/-- Bits 14 to 3 are the number modulo 32768, divided by the eight registers. -/
theorem bits14to3_zero_iff (w : W16) : w.extractLsb 14 3 = 0 ↔ w.toNat % 32768 ≤ 7 := by
  have hbits : (w.extractLsb 14 3).toNat = w.toNat / 8 % 4096 := by
    rw [BitVec.extractLsb_toNat, Nat.shiftRight_eq_div_pow]
  rw [← BitVec.toNat_inj, hbits]
  change w.toNat / 8 % 4096 = 0 ↔ _
  omega

theorem isLit_iff_bits (w : W16) : isLit w = true ↔ w.getLsbD 15 = false := by
  rw [isLit_iff, bit15_clear_iff]

theorem isReg_iff_bits (w : W16) : isReg w = true ↔ w.getLsbD 15 = true ∧ w.extractLsb 14 3 = 0 := by
  rw [isReg_iff, bit15_set_iff, bits14to3_zero_iff]
  omega

theorem isBad_iff_bits (w : W16) : isBad w = true ↔ w.getLsbD 15 = true ∧ w.extractLsb 14 3 ≠ 0 := by
  rw [isBad_iff, bit15_set_iff, Ne, bits14to3_zero_iff]
  omega

/-! ## The operand a word stands for -/

theorem Operand.ofWord_of_le {w : W16} (hw : w.toNat ≤ 32767) : Operand.ofWord w = .lit (w.setWidth 15) :=
  if_pos hw

theorem Operand.ofWord_of_eq_add {w : W16} {i : R3} (hw : w.toNat = 32768 + i.val) : Operand.ofWord w = .reg i := by
  have hnotLit : ¬ w.toNat ≤ 32767 := by omega
  have hreg : w.toNat ≤ 32775 := by omega
  have hindex : (⟨w.toNat - 32768, by omega⟩ : R3) = i := Fin.ext (by simp [hw])
  rw [Operand.ofWord, if_neg hnotLit, dif_pos hreg, hindex]

theorem Operand.ofWord_of_ge {w : W16} (hw : 32776 ≤ w.toNat) : Operand.ofWord w = .bad w := by
  have hnotLit : ¬ w.toNat ≤ 32767 := by omega
  have hnotReg : ¬ w.toNat ≤ 32775 := by omega
  rw [Operand.ofWord, if_neg hnotLit, dif_neg hnotReg]

theorem exists_index_of_isReg {w : W16} (h : isReg w = true) : ∃ i : R3, w.toNat = 32768 + i.val := by
  obtain ⟨hlo, hhi⟩ := (isReg_iff w).mp h
  exact ⟨⟨w.toNat - 32768, by omega⟩, (Nat.add_sub_cancel' hlo).symm⟩

/-- Every word is of one of the three classes, a register reference with its index. -/
theorem word_class_cases (w : W16) :
    w.toNat ≤ 32767 ∨ (∃ i : R3, w.toNat = 32768 + i.val) ∨ 32776 ≤ w.toNat := by
  by_cases hreg : isReg w = true
  · exact .inr (.inl (exists_index_of_isReg hreg))
  · rw [isReg_iff] at hreg
    omega

/-- The class of a word keeps all of the word. -/
@[simp] theorem Operand.word_ofWord (w : W16) : (Operand.ofWord w).word = w := by
  obtain hlit | ⟨i, hreg⟩ | hbad := word_class_cases w
  · have hlow : (w.setWidth 15).setWidth 16 = w := by bv_omega
    rw [Operand.ofWord_of_le hlit, Operand.word, hlow]
  · rw [Operand.ofWord_of_eq_add hreg, Operand.word, ← hreg, BitVec.ofNat_toNat, BitVec.setWidth_eq]
  · rw [Operand.ofWord_of_ge hbad, Operand.word]

theorem Operand.ofWord_of_isLit {w : W16} (h : isLit w = true) : Operand.ofWord w = .lit (w.extractLsb 14 0) := by
  have hlow : w.extractLsb 14 0 = w.setWidth 15 := BitVec.eq_of_toNat_eq (by simp)
  rw [hlow]
  exact Operand.ofWord_of_le ((isLit_iff w).mp h)

theorem Operand.ofWord_of_isReg {w : W16} (h : isReg w = true) :
    ∃ i : R3, Operand.ofWord w = .reg i ∧ i.val = w.toNat - 32768 ∧ i.val = (w.extractLsb 2 0).toNat := by
  obtain ⟨i, hi⟩ := exists_index_of_isReg h
  have hlow : (w.extractLsb 2 0).toNat = w.toNat % 8 := by simp
  exact ⟨i, Operand.ofWord_of_eq_add hi, by omega, by omega⟩

theorem Operand.ofWord_of_isBad {w : W16} (h : isBad w = true) : Operand.ofWord w = .bad w :=
  Operand.ofWord_of_ge ((isBad_iff w).mp h)

/-- Settles O5: the ranges are the definitions, the bits follow by arithmetic, and each class has its operand. -/
theorem operandWordClasses : Obligations.OperandWordClasses := fun w =>
  ⟨isLit_iff w, isReg_iff w, isBad_iff w, isLit_iff_bits w, isReg_iff_bits w, isBad_iff_bits w,
    Operand.ofWord_of_isLit, Operand.ofWord_of_isReg, Operand.ofWord_of_isBad, Operand.word_ofWord w⟩

end Sys2Proof

/-! PROOFS. Operand resolution by the class of the raw word (R96, R97), and the opcode words the table does not have (R100). -/

namespace Sys2Proof

open Sys2Proof.Machine

/-! ## Operand resolution -/

/-- Settles O6: each class of words has its operand, and `val` is given on each form of operand (R96). -/
theorem valueOperandResolution : Obligations.ValueOperandResolution := by
  intro s w
  refine ⟨fun hlit => ?_, fun i hreg => ?_, fun hbad => ?_⟩
  · rw [Operand.ofWord_of_le hlit, State.val_lit]
  · rw [Operand.ofWord_of_eq_add hreg, State.val_reg]
  · rw [Operand.ofWord_of_ge hbad, State.val_bad]

@[simp] theorem target_lit (v : V15) : target (.lit v) = .error (.badWriteTarget (v.setWidth 16)) := rfl

@[simp] theorem target_reg (i : R3) : target (.reg i) = .ok i := rfl

@[simp] theorem target_bad (w : W16) : target (.bad w) = .error (.invalidNumber (w.setWidth 21)) := rfl

/-- A literal word is its own number in 15 bits, so the 15 bits give back the whole word. -/
theorem setWidth_value_of_le {w : W16} (hw : w.toNat ≤ 32767) : (w.setWidth 15).setWidth 16 = w := by
  have hword := Operand.word_ofWord w
  rwa [Operand.ofWord_of_le hw, Operand.word] at hword

/-- Settles O7: each class of words has its operand, and `target` is given on each form of operand; a literal is reported
as the word it came from (R97). -/
theorem writeTargetResolution : Obligations.WriteTargetResolution := by
  intro w
  refine ⟨fun i hreg => ?_, fun hbad => ?_, fun hlit => ?_⟩
  · rw [Operand.ofWord_of_eq_add hreg, target_reg]
  · rw [Operand.ofWord_of_ge hbad, target_bad]
  · rw [Operand.ofWord_of_le hlit, target_lit, setWidth_value_of_le hlit]

/-! ## Opcode words outside the table -/

/-- The table's opcodes are the numbers 0 to 21, without a gap (R94). -/
theorem opcodeTable_opcodes : opcodeTable.map OpcodeRow.opcode = List.range 22 := rfl

theorem opcodeRow_eq_none_iff (op : W16) : opcodeRow op = none ↔ 21 < op.toNat := by
  have hrow : opcodeRow op = none ↔ op.toNat ∉ opcodeTable.map OpcodeRow.opcode := by
    simp [opcodeRow]
  rw [hrow, opcodeTable_opcodes, List.mem_range]
  omega

/-- Once its row is found, an instruction is rejected only for the operand words it lacks. -/
theorem Format.decode_error {f : Format} {ws : List W16} {e : DecodeError} (h : f.decode ws = .error e) :
    e = .truncated := by
  unfold Format.decode at h
  split at h <;> cases h <;> rfl

theorem decode_of_row {op : W16} {r : OpcodeRow} (hr : opcodeRow op = some r) (ws : List W16) :
    decode (op :: ws) = r.format.decode ws := by
  rw [decode, hr]

theorem decode_of_no_row {op : W16} (hr : opcodeRow op = none) (ws : List W16) :
    decode (op :: ws) = .error (.unknownOpcode op) := by
  rw [decode, hr]

/-- The operand words have no say in it: a row's own errors are of another kind. -/
theorem decode_unknownOpcode_iff (op : W16) (ws : List W16) :
    decode (op :: ws) = .error (.unknownOpcode op) ↔ opcodeRow op = none := by
  refine ⟨fun h => ?_, fun hr => decode_of_no_row hr ws⟩
  cases hr : opcodeRow op with
  | none => rfl
  | some r =>
    rw [decode_of_row hr] at h
    cases Format.decode_error h

namespace Machine

/-- Phase F1 faults before any operand word is read (R100, R245). -/
theorem State.fetch_of_no_row {s : State} {op : W16} (hop : s.memRead s.pc.toNat = .ok op) (hr : opcodeRow op = none) :
    s.fetch = .error (.unknownOpcode op) := by
  simp only [State.fetch, hop, hr]

/-- A fault of phases F1 and F2 is taken on the state the step began in (R236). -/
theorem step_of_fetch_error {s : State} {e : Trap} (h : s.ready) (he : s.fetch = .error e) :
    step s = .next (s.raise e s.pc) := by
  rw [step_of_ready h, fetchExecute, he]

end Machine

/-- Settles O39: the table has a row for the opcode words up to 21 and for no other; without a row the decoder and phase F1
fault, whatever the operand words are (R100). -/
theorem unknownOpcodeFaults : Obligations.UnknownOpcodeFaults := by
  refine ⟨fun op ws => ?_, fun s op hready hpc hread hop => ?_⟩
  · rw [decode_unknownOpcode_iff, opcodeRow_eq_none_iff]
  · have hfetch : s.fetch = .error (.unknownOpcode op) :=
      State.fetch_of_no_row (State.memRead_ok.mpr ⟨hpc, hread⟩) ((opcodeRow_eq_none_iff op).mpr hop)
    rw [step_of_fetch_error hready hfetch]
    rfl

end Sys2Proof

/-! PROOFS. How an instruction of the frame R98 ends, in the words of the claims (R236), and the family `halt`, `set`, `push`,
`pop` (R130 to R133). -/

namespace Sys2Proof.Machine

open Sys2Proof.Claims

/-! ## The ends of an instruction -/

/-- The 16-bit word between a literal and its `finfo` loses nothing of it (R97). -/
theorem setWidth_value_via_word (v : V15) : (v.setWidth 16).setWidth 21 = v.setWidth 21 :=
  BitVec.setWidth_setWidth (by decide)

/-- A fault of phase D or E is the claims' `faulted`: phases F3 and T stand, and the fault is taken (R236). -/
theorem execute_faulted (e : Trap) {n : Nat} {body : State → Except Trap State} {s : State}
    (h : body (s.issue n) = .error e) : execute n body s = .next (faulted n e.cause e.info s) := by
  rw [execute_of_error h, State.issue_eq]
  rfl

/-- A register write after phases F3 and T, as an update of the state the step began in. -/
theorem State.setReg_issue (s : State) (n : Nat) (i : R3) (v : V15) :
    (s.issue n).setReg i v =
      { s.traceStep with pc := s.pc + BitVec.ofNat 16 (1 + n), regs := s.regs.set i v } := by
  rw [State.setReg, State.issue_regs, State.issue_eq]

/-- An instruction that next resolves a value operand faults on an invalid word (R96). -/
theorem valueFaults_of_exec {n : Nat} {mk : Operand → Instr} {s : State} {k : State → V15 → Except Trap State}
    (h : ∀ o, exec (mk o) s = execute n (fun s1 => s1.withVal o (k s1)) s) : ValueFaults n mk s := by
  intro w
  rw [h]
  exact execute_faulted (.invalidNumber _) (State.withVal_fault (State.val_bad _ w))

/-- An instruction that first resolves a write target faults on an invalid word and on a literal (R97). -/
theorem targetFaults_of_exec {n : Nat} {mk : Operand → Instr} {s : State} {k : State → R3 → Except Trap State}
    (h : ∀ o, exec (mk o) s = execute n (fun s1 => withTarget o (k s1)) s) : TargetFaults n mk s := by
  refine ⟨fun w => ?_, fun v => ?_⟩
  · rw [h]
    exact execute_faulted (.invalidNumber _) (withTarget_bad w _)
  · rw [h, ← setWidth_value_via_word]
    exact execute_faulted (.badWriteTarget _) (withTarget_lit v _)

/-! ## halt -/

/-- No step of the core follows a stop or a fault (R8). -/
theorem step_of_halted {s : State} (hrun : s.run = .halted) (hreq : s.requests = []) : step s = .fault .halted := by
  simp only [step, hreq, coreStep, hrun]

/-- The whole next state of `halt` (R130). -/
theorem exec_halt_next (s : State) :
    exec .halt s = .next { s.traceStep with pc := s.pc + 1, run := .halted, cause := .haltInstr } := by
  have hstop : (s.issue 0).stop .haltInstr =
      { s.traceStep with pc := s.pc + 1, run := .halted, cause := .haltInstr } := by
    rw [State.issue_eq]
    rfl
  rw [exec_halt, ← hstop]
  exact execute_of_ok rfl

/-! ## set -/

/-- With a register target, phase D of `set` goes on with the value (R131). -/
theorem exec_set_reg (i : R3) (b : Operand) (s : State) :
    exec (.set (.reg i) b) s = execute 2 (fun s1 => s1.withVal b fun v => .ok (s1.setReg i v)) s := rfl

theorem exec_set_next {s : State} {b : Operand} {v : V15} (i : R3) (hb : s.val b = .ok v) :
    exec (.set (.reg i) b) s = .next { s.traceStep with pc := s.pc + 3, regs := s.regs.set i v } := by
  have hval : (s.issue 2).val b = .ok v := by rw [State.val_issue, hb]
  rw [exec_set_reg, execute_of_ok (State.withVal_eq hval), State.setReg_issue]
  rfl

/-! ## push -/

/-- Below the capacity a `V15` is pushed: it cannot fail the range test (R28). -/
theorem State.push_value_of_not_full {s : State} (hfull : s.stackFull = false) (v : V15) :
    s.push (v.setWidth 21) = .ok { s with stack := v :: s.stack } :=
  State.push_ok.mpr ⟨v, toValue_of_value v, hfull, rfl⟩

/-- At the capacity the push of a `V15` is `StackOverflow` (R28). -/
theorem State.push_value_of_full {s : State} (hfull : s.stackFull = true) (v : V15) :
    s.push (v.setWidth 21) = .error (.stackOverflow v) :=
  State.push_error.mpr (.inr ⟨v, toValue_of_value v, hfull, rfl⟩)

theorem State.stackFull_eq_false_iff {s : State} :
    s.stackFull = false ↔ s.params.stackCap ≠ some s.stack.length := by
  rw [← Bool.not_eq_true, Ne, State.stackFull_iff]

/-- A push after phases F3 and T, as an update of the state the step began in. -/
theorem State.push_issue_of_not_full {s : State} (n : Nat) (hfull : s.stackFull = false) (v : V15) :
    (s.issue n).push (v.setWidth 21) =
      .ok { s.traceStep with pc := s.pc + BitVec.ofNat 16 (1 + n), stack := v :: s.stack } := by
  rw [State.push_value_of_not_full (by rw [State.stackFull_issue, hfull]), State.issue_stack, State.issue_eq]

theorem State.push_issue_of_full {s : State} (n : Nat) (hfull : s.stackFull = true) (v : V15) :
    (s.issue n).push (v.setWidth 21) = .error (.stackOverflow v) :=
  State.push_value_of_full (by rw [State.stackFull_issue, hfull]) v

theorem exec_push_next {s : State} {a : Operand} {v : V15} (ha : s.val a = .ok v) (hfull : s.stackFull = false) :
    exec (.push a) s = .next { s.traceStep with pc := s.pc + 2, stack := v :: s.stack } := by
  have hval : (s.issue 1).val a = .ok v := by rw [State.val_issue, ha]
  rw [exec_push]
  exact execute_of_ok ((State.withVal_eq hval).trans (State.push_issue_of_not_full 1 hfull v))

theorem exec_push_overflow {s : State} {a : Operand} {v : V15} (ha : s.val a = .ok v) (hfull : s.stackFull = true) :
    exec (.push a) s = .next (faulted 1 .stackOverflow (v.setWidth 21) s) := by
  have hval : (s.issue 1).val a = .ok v := by rw [State.val_issue, ha]
  rw [exec_push]
  exact execute_faulted (.stackOverflow v) ((State.withVal_eq hval).trans (State.push_issue_of_full 1 hfull v))

/-! ## pop -/

theorem State.popInto_of_empty {s : State} (i : R3) (hs : s.stack = []) : s.popInto i = .error .stackUnderflow := by
  simp only [State.popInto, hs]

theorem exec_pop_reg (i : R3) (s : State) : exec (.pop (.reg i)) s = execute 1 (fun s1 => s1.popInto i) s := rfl

theorem exec_pop_next {s : State} {v : V15} {rest : List V15} (i : R3) (hs : s.stack = v :: rest) :
    exec (.pop (.reg i)) s =
      .next { s.traceStep with pc := s.pc + 2, stack := rest, regs := s.regs.set i v } := by
  have hstack : (s.issue 1).stack = v :: rest := by rw [State.issue_stack, hs]
  rw [exec_pop_reg, execute_of_ok (State.popInto_ok.mpr ⟨v, rest, hstack, rfl⟩), State.setReg, State.issue_regs,
    State.issue_eq]
  rfl

theorem exec_pop_underflow {s : State} (i : R3) (hs : s.stack = []) :
    exec (.pop (.reg i)) s = .next (faulted 1 .stackUnderflow 0 s) := by
  have hstack : (s.issue 1).stack = [] := by rw [State.issue_stack, hs]
  rw [exec_pop_reg]
  exact execute_faulted .stackUnderflow (State.popInto_of_empty i hstack)

end Sys2Proof.Machine

namespace Sys2Proof

open Sys2Proof.Machine

/-! ## The rules of the family (R130 to R133) -/

/-- Settles O9: the state `halt` leads to is HALTED, and the host's queue in it is the one before. -/
theorem haltStopsTheMachine : Obligations.HaltStopsTheMachine := by
  refine ⟨rfl, fun s => ⟨exec_halt_next s, fun hreq t ht => ?_⟩⟩
  rw [exec_halt_next] at ht
  cases ht
  exact step_of_halted rfl ((State.traceStep_requests s).trans hreq)

/-- Settles O10: the target is resolved before the value, and each can fault (R131). -/
theorem setWritesRegister : Obligations.SetWritesRegister :=
  ⟨fun _ _ => rfl, fun s =>
    ⟨fun i _ _ hb => exec_set_next i hb, fun b => targetFaults_of_exec fun a => exec_set a b s,
      fun i => valueFaults_of_exec fun b => exec_set_reg i b s⟩⟩

/-- Settles O11: the capacity test decides between the push and `StackOverflow` (R132). -/
theorem pushStoresOnStack : Obligations.PushStoresOnStack :=
  ⟨fun _ => rfl, fun s =>
    ⟨fun _ _ ha hcap => exec_push_next ha (State.stackFull_eq_false_iff.mpr hcap),
      fun _ _ ha hcap => exec_push_overflow ha (State.stackFull_iff.mpr hcap),
      valueFaults_of_exec fun a => exec_push a s⟩⟩

/-- Settles O12: the target is resolved before the stack is looked at, which then has a top or not (R133). -/
theorem popTakesTopOfStack : Obligations.PopTakesTopOfStack :=
  ⟨fun _ => rfl, fun s =>
    ⟨fun i _ _ hs => exec_pop_next i hs, fun i hs => exec_pop_underflow i hs,
      targetFaults_of_exec fun a => exec_pop a s⟩⟩

end Sys2Proof

/-! PROOFS. What a three-operand ALU instruction does (R98, R160, R167), in the words of the claims, and the family `eq`, `gt`
(R140, R141). -/

namespace Sys2Proof.Machine

open Sys2Proof.Claims

/-! ## The three-operand ALU instructions -/

/-- Phases D and E see only the state after phases F3 and T. -/
theorem execute_congr {n : Nat} {body body' : State → Except Trap State} {s : State}
    (h : body (s.issue n) = body' (s.issue n)) : execute n body s = execute n body' s := by
  rw [execute, execute, h]

/-- With a register target, phase D goes on with `b`. -/
theorem executeAlu3_reg (op : AluOp) (i : R3) (b c : Operand) (s : State) :
    executeAlu3 op (.reg i) b c s =
      execute 3 (fun s1 => s1.withVal b fun x => s1.withVal c fun y => s1.aluWrite op i x y) s := rfl

/-- With a register target and a readable `b`, phase D goes on with `c`. -/
theorem executeAlu3_reg_val {op : AluOp} {s : State} {b : Operand} {x : V15} (i : R3) (hb : s.val b = .ok x)
    (c : Operand) :
    executeAlu3 op (.reg i) b c s = execute 3 (fun s1 => s1.withVal c fun y => s1.aluWrite op i x y) s := by
  have hval : (s.issue 3).val b = .ok x := by rw [State.val_issue, hb]
  rw [executeAlu3_reg]
  exact execute_congr (State.withVal_eq hval)

/-- The result of an ALU instruction is written unless `div0` is asserted (R160, R162). -/
theorem executeAlu3_next {op : AluOp} {s : State} {b c : Operand} {x y : V15} (i : R3) (hb : s.val b = .ok x)
    (hc : s.val c = .ok y) (hdiv : op.div0 y = false) :
    executeAlu3 op (.reg i) b c s =
      .next { s.traceStep with pc := s.pc + 4, regs := s.regs.set i (op.result x y) } := by
  have hval : (s.issue 3).val c = .ok y := by rw [State.val_issue, hc]
  have hwrite : (s.issue 3).aluWrite op i x y = .ok ((s.issue 3).setReg i (op.result x y)) :=
    State.aluWrite_ok.mpr ⟨hdiv, rfl⟩
  rw [executeAlu3_reg_val i hb, execute_of_ok ((State.withVal_eq hval).trans hwrite), State.setReg_issue]
  rfl

/-- The operand faults do not depend on the operation: `a`, then `b`, then `c` (R160). -/
theorem operandFaults3_of_exec {op : AluOp} {mk : Operand → Operand → Operand → Instr} {s : State}
    (h : ∀ a b c, exec (mk a b c) s = executeAlu3 op a b c s) : OperandFaults3 mk s := by
  refine ⟨fun b c => ?_, fun i c => ?_, fun i b x hb => ?_⟩
  · exact targetFaults_of_exec fun a => (h a b c).trans (executeAlu3_eq op a b c s)
  · exact valueFaults_of_exec fun b => (h (.reg i) b c).trans (executeAlu3_reg op i b c s)
  · exact valueFaults_of_exec fun c => (h (.reg i) b c).trans (executeAlu3_reg_val i hb c)

/-- Only `mod` can assert `div0` (R167). -/
theorem AluOp.div0_of_ne_mod {op : AluOp} (h : op ≠ .mod) (c : V15) : op.div0 c = false := by
  rw [← Bool.not_eq_true, AluOp.div0_iff]
  exact fun ⟨hmod, _⟩ => h hmod

/-- The rule of an ALU instruction other than `mod`, from its encoding, its operation and that operation's result. -/
theorem aluRule_of_exec {opcode : W16} {mk : Operand → Operand → Operand → Instr} {op : AluOp} {f : V15 → V15 → V15}
    (hencode : ∀ a b c, encode (mk a b c) = [opcode, a.word, b.word, c.word])
    (hexec : ∀ a b c s, exec (mk a b c) s = executeAlu3 op a b c s) (hop : op ≠ .mod)
    (hresult : ∀ x y, op.result x y = f x y) : AluRule opcode mk f := by
  refine ⟨hencode, fun s => ⟨fun i b c x y hb hc => ?_, operandFaults3_of_exec fun a b c => hexec a b c s⟩⟩
  rw [hexec, executeAlu3_next i hb hc (AluOp.div0_of_ne_mod hop y), hresult]

/-! ## The comparisons -/

/-- Words are equal exactly when their numbers are (R140). -/
theorem AluOp.result_eq (x y : V15) : AluOp.eq.result x y = if x.toNat = y.toNat then 1 else 0 := by
  simp only [AluOp.result, truth, decide_eq_true_eq, BitVec.toNat_inj]

/-- The comparison is of the numbers, strict and unsigned (R141). -/
theorem AluOp.result_gt (x y : V15) : AluOp.gt.result x y = if y.toNat < x.toNat then 1 else 0 := by
  simp only [AluOp.result, truth, decide_eq_true_eq]

end Sys2Proof.Machine

namespace Sys2Proof

open Sys2Proof.Machine

/-! ## The rules of the family (R140, R141) -/

/-- Settles O13: `eq` is an ALU instruction whose result is the truth value of equality (R140). -/
theorem eqWritesTruthValue : Obligations.EqWritesTruthValue :=
  aluRule_of_exec (fun _ _ _ => rfl) exec_eq (by decide) AluOp.result_eq

/-- Settles O14: `gt` is an ALU instruction whose result is the truth value of the unsigned comparison (R141). -/
theorem gtWritesTruthValue : Obligations.GtWritesTruthValue :=
  aluRule_of_exec (fun _ _ _ => rfl) exec_gt (by decide) AluOp.result_gt

end Sys2Proof

/-! PROOFS. A value operand that is readable is resolved once and for all (R96), and the family `jmp`, `jt`, `jf` (R150 to R152):
the two conditional jumps are one instruction up to their condition. -/

namespace Sys2Proof.Machine

open Sys2Proof.Claims

/-- With a readable operand, phase D goes on with its value: phases F3 and T do not change it (R96). -/
theorem execute_withVal {s : State} {o : Operand} {v : V15} (n : Nat) (k : State → V15 → Except Trap State)
    (ho : s.val o = .ok v) : execute n (fun s1 => s1.withVal o (k s1)) s = execute n (fun s1 => k s1 v) s := by
  have hval : (s.issue n).val o = .ok v := by rw [State.val_issue, ho]
  exact execute_congr (State.withVal_eq hval)

/-- A jump after phases F3 and T, as an update of the state the step began in. -/
theorem State.jump_issue (s : State) (n : Nat) (t : V15) :
    (s.issue n).jump t = { s.traceStep with pc := t.setWidth 16 } := by
  rw [State.issue_eq]
  rfl

/-! ## jmp -/

theorem exec_jmp_next {s : State} {a : Operand} {t : V15} (ha : s.val a = .ok t) :
    exec (.jmp a) s = .next { s.traceStep with pc := t.setWidth 16 } := by
  rw [exec_jmp, execute_withVal 1 _ ha]
  exact execute_of_ok (congrArg Except.ok (State.jump_issue s 1 t))

/-! ## jt, jf -/

/-- The condition chooses between the target and the next instruction, and only the pc depends on it. -/
theorem State.jumpIf_issue (s : State) (n : Nat) (t : V15) (p : Prop) [Decidable p] :
    (if p then (s.issue n).jump t else s.issue n) =
      { s.traceStep with pc := if p then t.setWidth 16 else s.pc + BitVec.ofNat 16 (1 + n) } := by
  by_cases hp : p
  · rw [if_pos hp, if_pos hp, State.jump_issue]
  · rw [if_neg hp, if_neg hp, State.issue_eq]

/-- The conditional jump whose condition is `c`: what `jt` and `jf` have in common (R151, R152). -/
def executeJumpIf (c : V15 → Prop) [DecidablePred c] (a b : Operand) (s : State) :
    Host.Outcome State Fault Refusal :=
  execute 2 (fun s1 => s1.withVal a fun v => s1.withVal b fun t => .ok (if c v then s1.jump t else s1)) s

theorem exec_jt_eq_jumpIf (a b : Operand) (s : State) : exec (.jt a b) s = executeJumpIf (· ≠ 0) a b s := exec_jt a b s

theorem exec_jf_eq_jumpIf (a b : Operand) (s : State) : exec (.jf a b) s = executeJumpIf (· = 0) a b s := exec_jf a b s

section

variable {c : V15 → Prop} [DecidablePred c]

/-- With a readable `a`, phase D goes on with `b`, whatever the condition says of the value. -/
theorem executeJumpIf_val {s : State} {a : Operand} {v : V15} (ha : s.val a = .ok v) (b : Operand) :
    executeJumpIf c a b s =
      execute 2 (fun s1 => s1.withVal b fun t => .ok (if c v then s1.jump t else s1)) s :=
  execute_withVal 2 (fun s1 v => s1.withVal b fun t => .ok (if c v then s1.jump t else s1)) ha

/-- The whole next state of a conditional jump whose operands are readable (R151, R152). -/
theorem executeJumpIf_next {s : State} {a b : Operand} {v t : V15} (ha : s.val a = .ok v) (hb : s.val b = .ok t) :
    executeJumpIf c a b s = .next { s.traceStep with pc := if c v then t.setWidth 16 else s.pc + 3 } := by
  rw [executeJumpIf_val ha, execute_withVal 2 _ hb]
  exact execute_of_ok (congrArg Except.ok (State.jumpIf_issue s 2 t (c v)))

/-- The operand faults do not depend on the condition: `a`, then `b` (R151, R152). -/
theorem valueFaults_of_jumpIf {mk : Operand → Operand → Instr} {s : State}
    (h : ∀ a b, exec (mk a b) s = executeJumpIf c a b s) :
    (∀ b, ValueFaults 2 (fun a => mk a b) s) ∧
      ∀ a v, s.val a = .ok v → ValueFaults 2 (fun b => mk a b) s := by
  refine ⟨fun b => ?_, fun a v ha => ?_⟩
  · exact valueFaults_of_exec fun a => h a b
  · exact valueFaults_of_exec fun b => (h a b).trans (executeJumpIf_val ha b)

end

/-- A value is zero when its number is. -/
theorem value_eq_zero_iff (v : V15) : v = 0 ↔ v.toNat = 0 := BitVec.toNat_inj.symm

theorem exec_jt_next {s : State} {a b : Operand} {v t : V15} (ha : s.val a = .ok v) (hb : s.val b = .ok t) :
    exec (.jt a b) s =
      .next { s.traceStep with pc := if v.toNat = 0 then s.pc + 3 else t.setWidth 16 } := by
  rw [exec_jt_eq_jumpIf, executeJumpIf_next ha hb]
  simp only [ne_eq, ite_not, value_eq_zero_iff]

theorem exec_jf_next {s : State} {a b : Operand} {v t : V15} (ha : s.val a = .ok v) (hb : s.val b = .ok t) :
    exec (.jf a b) s =
      .next { s.traceStep with pc := if v.toNat = 0 then t.setWidth 16 else s.pc + 3 } := by
  rw [exec_jf_eq_jumpIf, executeJumpIf_next ha hb]
  simp only [value_eq_zero_iff]

end Sys2Proof.Machine

namespace Sys2Proof

open Sys2Proof.Machine

/-! ## The rules of the family (R150 to R152) -/

/-- Settles O15: the one operand is the target, and it is resolved before the jump (R150). -/
theorem jmpSetsPc : Obligations.JmpSetsPc :=
  ⟨fun _ => rfl, fun s => ⟨fun _ _ ha => exec_jmp_next ha, valueFaults_of_exec fun a => exec_jmp a s⟩⟩

/-- Settles O16: `jt` is the conditional jump on a value other than zero (R151). -/
theorem jtJumpsOnNonZero : Obligations.JtJumpsOnNonZero :=
  ⟨fun _ _ => rfl, fun s =>
    ⟨fun _ _ _ _ ha hb => exec_jt_next ha hb, valueFaults_of_jumpIf fun a b => exec_jt_eq_jumpIf a b s⟩⟩

/-- Settles O17: `jf` is the conditional jump on zero (R152). -/
theorem jfJumpsOnZero : Obligations.JfJumpsOnZero :=
  ⟨fun _ _ => rfl, fun s =>
    ⟨fun _ _ _ _ ha hb => exec_jf_next ha hb, valueFaults_of_jumpIf fun a b => exec_jf_eq_jumpIf a b s⟩⟩

end Sys2Proof

/-! PROOFS. The results of the ALU in the words of the claims (R160 to R167), and the family `add`, `mult`, `mod`, `and`, `or`,
`not` (R160 to R165). -/

namespace Sys2Proof.Machine

open Sys2Proof.Claims

/-! ## The ALU's results -/

theorem AluOp.result_add (x y : V15) : AluOp.add.result x y = BitVec.ofNat 15 ((x.toNat + y.toNat) % 32768) := rfl

theorem AluOp.result_mult (x y : V15) : AluOp.mult.result x y = BitVec.ofNat 15 ((x.toNat * y.toNat) % 32768) := rfl

/-- A remainder of 15-bit numbers fits in 15 bits (R162). -/
theorem AluOp.result_mod_toNat (x y : V15) : (AluOp.mod.result x y).toNat = x.toNat % y.toNat := by
  have hfits : x.toNat % y.toNat < 2 ^ 15 := (Nat.mod_le _ _).trans_lt x.isLt
  rw [AluOp.result, BitVec.toNat_ofNat, Nat.mod_eq_of_lt hfits]

/-- The bitwise and of the numbers is that of the words (R163). -/
theorem AluOp.result_and (x y : V15) : AluOp.and.result x y = BitVec.ofNat 15 (x.toNat &&& y.toNat) := by
  rw [← BitVec.toNat_and, BitVec.ofNat_toNat, BitVec.setWidth_eq, AluOp.result]

/-- The bitwise or of the numbers is that of the words (R164). -/
theorem AluOp.result_or (x y : V15) : AluOp.or.result x y = BitVec.ofNat 15 (x.toNat ||| y.toNat) := by
  rw [← BitVec.toNat_or, BitVec.ofNat_toNat, BitVec.setWidth_eq, AluOp.result]

/-- The complement of 15 bits is that of 16 bits without the top bit: the mask is 15 ones (R165). -/
theorem AluOp.result_not_setWidth (x c : V15) :
    (AluOp.not.result x c).setWidth 16 = ~~~(x.setWidth 16) &&& 0x7FFF#16 := by
  have hmask : 0x7FFF#16 = (BitVec.allOnes 15).setWidth 16 := by decide
  rw [hmask, AluOp.result]
  refine BitVec.eq_of_getLsbD_eq fun k hk => ?_
  simp only [BitVec.getLsbD_setWidth, BitVec.getLsbD_not, BitVec.getLsbD_and, BitVec.getLsbD_allOnes]
  by_cases hlow : k < 15 <;> simp [hk, hlow]

theorem AluOp.result_not_toNat (x c : V15) : (AluOp.not.result x c).toNat = 32767 - x.toNat := BitVec.toNat_not

/-! ## mod by zero -/

theorem State.aluWrite_error {op : AluOp} {c : V15} (hdiv : op.div0 c = true) (s : State) (i : R3) (b : V15) :
    s.aluWrite op i b c = .error (.divideByZero b) := if_pos hdiv

/-- When `div0` is asserted, `DivideByZero(b)` is taken and no register is written (R162). -/
theorem executeAlu3_divideByZero {op : AluOp} {s : State} {b c : Operand} {x y : V15} (i : R3) (hb : s.val b = .ok x)
    (hc : s.val c = .ok y) (hdiv : op.div0 y = true) :
    executeAlu3 op (.reg i) b c s = .next (faulted 3 .divideByZero (x.setWidth 21) s) := by
  rw [executeAlu3_reg_val i hb, execute_withVal 3 (fun s1 y => s1.aluWrite op i x y) hc]
  exact execute_faulted (.divideByZero x) (State.aluWrite_error hdiv _ i x)

/-! ## mod, not -/

theorem exec_mod_next {s : State} {b c : Operand} {x y : V15} (i : R3) (hb : s.val b = .ok x) (hc : s.val c = .ok y)
    (hy : y.toNat ≠ 0) :
    exec (.mod (.reg i) b c) s =
      .next { s.traceStep with pc := s.pc + 4, regs := s.regs.set i (AluOp.mod.result x y) } := by
  have hdiv : AluOp.mod.div0 y = false := by
    rw [← Bool.not_eq_true, AluOp.div0_iff, value_eq_zero_iff]
    exact fun ⟨_, hzero⟩ => hy hzero
  rw [exec_mod, executeAlu3_next i hb hc hdiv]

theorem exec_mod_divideByZero {s : State} {b c : Operand} {x : V15} (i : R3) (hb : s.val b = .ok x)
    (hc : s.val c = .ok 0) : exec (.mod (.reg i) b c) s = .next (faulted 3 .divideByZero (x.setWidth 21) s) := by
  rw [exec_mod, executeAlu3_divideByZero i hb hc (AluOp.div0_iff.mpr ⟨rfl, rfl⟩)]

/-- With a register target, phase D of `not` goes on with the value (R165). -/
theorem exec_not_reg (i : R3) (b : Operand) (s : State) :
    exec (.not (.reg i) b) s = execute 2 (fun s1 => s1.withVal b fun x => s1.aluWrite .not i x 0) s := rfl

theorem exec_not_next {s : State} {b : Operand} {x : V15} (i : R3) (hb : s.val b = .ok x) :
    exec (.not (.reg i) b) s =
      .next { s.traceStep with pc := s.pc + 3, regs := s.regs.set i (AluOp.not.result x 0) } := by
  have hwrite : (s.issue 2).aluWrite .not i x 0 = .ok ((s.issue 2).setReg i (AluOp.not.result x 0)) :=
    State.aluWrite_ok.mpr ⟨AluOp.div0_of_ne_mod (by decide) 0, rfl⟩
  rw [exec_not_reg, execute_withVal 2 (fun s1 x => s1.aluWrite .not i x 0) hb, execute_of_ok hwrite, State.setReg_issue]
  rfl

end Sys2Proof.Machine

namespace Sys2Proof

open Sys2Proof.Machine

/-! ## The rules of the family (R160 to R165) -/

/-- Settles O18: `add` is an ALU instruction whose result is the sum modulo 32768 (R160). -/
theorem addWrapsModulo32768 : Obligations.AddWrapsModulo32768 :=
  aluRule_of_exec (fun _ _ _ => rfl) exec_add (by decide) AluOp.result_add

/-- Settles O19: `mult` is an ALU instruction whose result is the exact product modulo 32768 (R161). -/
theorem multWrapsModulo32768 : Obligations.MultWrapsModulo32768 :=
  aluRule_of_exec (fun _ _ _ => rfl) exec_mult (by decide) AluOp.result_mult

/-- Settles O20: the ALU asserts `div0` exactly for a zero divisor, and any other divisor bounds the remainder (R162). -/
theorem modIsRemainderOrDivideByZero : Obligations.ModIsRemainderOrDivideByZero := by
  refine ⟨fun _ _ _ => rfl, fun s => ⟨fun i b c x y hb hc hy => ?_, fun i b c x hb hc => ?_, ?_⟩⟩
  · have hr : (AluOp.mod.result x y).toNat = x.toNat % y.toNat := AluOp.result_mod_toNat x y
    have hbound : (AluOp.mod.result x y).toNat < y.toNat := hr ▸ Nat.mod_lt _ (Nat.pos_of_ne_zero hy)
    exact ⟨AluOp.mod.result x y, hr, hbound, exec_mod_next i hb hc hy⟩
  · exact exec_mod_divideByZero i hb hc
  · exact operandFaults3_of_exec fun a b c => exec_mod a b c s

/-- Settles O21: `and` is an ALU instruction whose result is the bitwise and (R163). -/
theorem andIsBitwise : Obligations.AndIsBitwise :=
  aluRule_of_exec (fun _ _ _ => rfl) exec_and (by decide) AluOp.result_and

/-- Settles O22: `or` is an ALU instruction whose result is the bitwise or (R164). -/
theorem orIsBitwise : Obligations.OrIsBitwise :=
  aluRule_of_exec (fun _ _ _ => rfl) exec_or (by decide) AluOp.result_or

/-- Settles O23: the complement of 15 bits, as the masked 16-bit complement and as a number (R165). -/
theorem notComplements15Bits : Obligations.NotComplements15Bits := by
  refine ⟨fun _ _ => rfl, fun s => ⟨fun i b x hb => ?_, fun b => ?_, fun i => ?_⟩⟩
  · exact ⟨AluOp.not.result x 0, AluOp.result_not_setWidth x 0, AluOp.result_not_toNat x 0, exec_not_next i hb⟩
  · exact targetFaults_of_exec fun a => exec_not a b s
  · exact valueFaults_of_exec fun b => exec_not_reg i b s

end Sys2Proof

/-! PROOFS. What `rmem` loads from a cell, by the cell's content, and the family `rmem`, `wmem` (R180, R181). -/

namespace Sys2Proof.Machine

open Sys2Proof.Claims

/-! ## The range test on the word of a cell -/

/-- A cell's word in the range test is its own number (R38). -/
theorem toNat_cellWord (w : W16) : (w.setWidth 21).toNat = w.toNat := BitVec.toNat_setWidth_of_le (by decide)

theorem toValue_cellWord_of_le {w : W16} (hw : w.toNat ≤ 32767) : toValue (w.setWidth 21) = .ok (w.setWidth 15) := by
  have hlow : w.setWidth 15 = (w.setWidth 21).setWidth 15 := (BitVec.setWidth_setWidth (by decide)).symm
  exact toValue_ok.mpr ⟨(toNat_cellWord w).trans_le hw, hlow⟩

theorem toValue_cellWord_of_gt {w : W16} (hw : 32767 < w.toNat) :
    toValue (w.setWidth 21) = .error (.invalidNumber (w.setWidth 21)) :=
  toValue_error.mpr ⟨hw.trans_eq (toNat_cellWord w).symm, rfl⟩

/-! ## The access of a cell -/

/-- Every `V15` is the address of a cell, so only an unwritten cell faults (R63). -/
theorem State.memRead_value_of_some {s : State} {addr : V15} {w : W16} (hread : s.mem.read addr.toNat = some w) :
    s.memRead addr.toNat = .ok w :=
  State.memRead_ok.mpr ⟨Nat.le_of_lt_succ addr.isLt, hread⟩

theorem State.memRead_value_of_none {s : State} {addr : V15} (hread : s.mem.read addr.toNat = none) :
    s.memRead addr.toNat = .error (.unmappedAccess addr.toNat) :=
  State.memRead_error.mpr ⟨rfl, .inr hread⟩

/-- The two faults of phase E of `rmem`, the cell's before its word's (R180). -/
theorem State.loadInto_error {s : State} {i : R3} {addr : V15} {e : Trap} :
    s.loadInto i addr = .error e ↔
      s.memRead addr.toNat = .error e ∨ ∃ w, s.memRead addr.toNat = .ok w ∧ toValue (w.setWidth 21) = .error e := by
  unfold State.loadInto
  cases s.memRead addr.toNat with
  | error e' => simp
  | ok w => cases h : toValue (w.setWidth 21) <;> simp [h]

/-! ## rmem -/

/-- With a register target, phase D of `rmem` goes on with the address (R180). -/
theorem exec_rmem_reg (i : R3) (b : Operand) (s : State) :
    exec (.rmem (.reg i) b) s = execute 2 (fun s1 => s1.withVal b fun addr => s1.loadInto i addr) s := rfl

/-- With a register target and a readable address, `rmem` is the load (R180). -/
theorem exec_rmem_reg_val {s : State} {b : Operand} {addr : V15} (i : R3) (hb : s.val b = .ok addr) :
    exec (.rmem (.reg i) b) s = execute 2 (fun s1 => s1.loadInto i addr) s :=
  (exec_rmem_reg i b s).trans (execute_withVal 2 (fun s1 addr => s1.loadInto i addr) hb)

section

variable {s : State} {b : Operand} {addr : V15} {w : W16}

theorem exec_rmem_next (i : R3) (hb : s.val b = .ok addr) (hread : s.mem.read addr.toNat = some w)
    (hw : w.toNat ≤ 32767) :
    exec (.rmem (.reg i) b) s =
      .next { s.traceStep with pc := s.pc + 3, regs := s.regs.set i (w.setWidth 15) } := by
  have hcell : (s.issue 2).memRead addr.toNat = .ok w :=
    (State.memRead_issue s 2 _).trans (State.memRead_value_of_some hread)
  have hload := State.loadInto_ok (i := i).mpr ⟨w, _, hcell, toValue_cellWord_of_le hw, rfl⟩
  rw [exec_rmem_reg_val i hb, execute_of_ok hload, State.setReg_issue]
  rfl

theorem exec_rmem_unmapped (i : R3) (hb : s.val b = .ok addr) (hread : s.mem.read addr.toNat = none) :
    exec (.rmem (.reg i) b) s = .next (faulted 2 .unmappedAccess (addr.setWidth 21) s) := by
  have hcell : (s.issue 2).memRead addr.toNat = .error (.unmappedAccess addr.toNat) :=
    (State.memRead_issue s 2 _).trans (State.memRead_value_of_none hread)
  rw [exec_rmem_reg_val i hb, ← BitVec.ofNat_toNat]
  exact execute_faulted (.unmappedAccess addr.toNat) (State.loadInto_error.mpr (.inl hcell))

theorem exec_rmem_invalid (i : R3) (hb : s.val b = .ok addr) (hread : s.mem.read addr.toNat = some w)
    (hw : 32767 < w.toNat) :
    exec (.rmem (.reg i) b) s = .next (faulted 2 .invalidNumber (w.setWidth 21) s) := by
  have hcell : (s.issue 2).memRead addr.toNat = .ok w :=
    (State.memRead_issue s 2 _).trans (State.memRead_value_of_some hread)
  rw [exec_rmem_reg_val i hb]
  exact execute_faulted (.invalidNumber _) (State.loadInto_error.mpr (.inr ⟨w, hcell, toValue_cellWord_of_gt hw⟩))

end

/-! ## wmem -/

/-- A memory write after phases F3 and T, as an update of the state the step began in. -/
theorem State.memWrite_issue (s : State) (n : Nat) (a : A15) (w : W16) :
    (s.issue n).memWrite a w =
      { s.traceStep with pc := s.pc + BitVec.ofNat 16 (1 + n), mem := s.mem.write a w } := by
  rw [State.memWrite, State.issue_mem, State.issue_eq]

/-- With a readable address, phase D of `wmem` goes on with the data (R181). -/
theorem exec_wmem_val {s : State} {a : Operand} {addr : V15} (ha : s.val a = .ok addr) (b : Operand) :
    exec (.wmem a b) s =
      execute 2 (fun s1 => s1.withVal b fun v => .ok (s1.memWrite addr (v.setWidth 16))) s :=
  (exec_wmem a b s).trans
    (execute_withVal 2 (fun s1 addr => s1.withVal b fun v => .ok (s1.memWrite addr (v.setWidth 16))) ha)

theorem exec_wmem_next {s : State} {a b : Operand} {addr v : V15} (ha : s.val a = .ok addr) (hb : s.val b = .ok v) :
    exec (.wmem a b) s =
      .next { s.traceStep with pc := s.pc + 3, mem := s.mem.write addr (v.setWidth 16) } := by
  rw [exec_wmem_val ha, execute_withVal 2 (fun s1 v => .ok (s1.memWrite addr (v.setWidth 16))) hb]
  exact execute_of_ok (congrArg Except.ok (State.memWrite_issue s 2 addr _))

end Sys2Proof.Machine

namespace Sys2Proof

open Sys2Proof.Machine

/-! ## The rules of the family (R180, R181) -/

/-- Settles O24: the target and the address are resolved, then the cell's content decides between the load and the two
faults (R180). -/
theorem rmemReadsCell : Obligations.RmemReadsCell := by
  refine ⟨fun _ _ => rfl, fun s => ⟨fun i b addr w hb hread hw => ?_, fun i b addr hb hread => ?_,
    fun i b addr w hb hread hw => ?_, fun b => ?_, fun i => ?_⟩⟩
  · exact exec_rmem_next i hb hread hw
  · exact exec_rmem_unmapped i hb hread
  · exact exec_rmem_invalid i hb hread hw
  · exact targetFaults_of_exec fun a => exec_rmem a b s
  · exact valueFaults_of_exec fun b => exec_rmem_reg i b s

/-- Settles O25: the next memory is the one before with a single cell written, the cell of the first operand's value
(R181). -/
theorem wmemWritesCell : Obligations.WmemWritesCell := by
  refine ⟨fun _ _ => rfl, fun s => ⟨fun a b addr v ha hb => ?_, fun b => ?_, fun a addr ha => ?_⟩⟩
  · exact ⟨_, exec_wmem_next ha hb, rfl, Memory.read_write_same s.mem addr _,
      fun other hother => Memory.read_write_other s.mem addr _ hother⟩
  · exact valueFaults_of_exec fun a => exec_wmem a b s
  · exact valueFaults_of_exec fun b => exec_wmem_val ha b

end Sys2Proof

/-! PROOFS. The return address as a word of the range test, and the family `call`, `ret` (R190, R191). -/

namespace Sys2Proof.Machine

open Sys2Proof.Claims

/-! ## The return address -/

/-- The number of a `V15` is the same in the range test's 21 bits (R38). -/
theorem setWidth_ofNat_value {n : Nat} (hn : n ≤ 32767) : (BitVec.ofNat 15 n).setWidth 21 = BitVec.ofNat 21 n :=
  BitVec.setWidth_ofNat_of_le_of_lt (by decide) (Nat.lt_succ_of_le hn)

/-- What `call` pushes is the pc after phase F3, short of the wrap of the 16-bit pc (R190). -/
theorem State.returnAddress_issue {s : State} (hpc : s.pc.toNat + 2 < 2 ^ 16) :
    (s.issue 1).pc.setWidth 21 = BitVec.ofNat 21 (s.pc.toNat + 2) := by
  have hnext : (s.pc + 2).toNat = s.pc.toNat + 2 := BitVec.toNat_add_of_lt hpc
  have hissue : (s.issue 1).pc = s.pc + 2 := State.issue_pc s 1
  rw [hissue, ← BitVec.ofNat_toNat, hnext]

/-- Up to `ipc = 32765` the return address is a `V15` (R190). -/
theorem State.returnAddress_issue_of_le {s : State} (hpc : s.pc.toNat + 2 ≤ 32767) :
    (s.issue 1).pc.setWidth 21 = (BitVec.ofNat 15 (s.pc.toNat + 2)).setWidth 21 := by
  rw [setWidth_ofNat_value hpc]
  exact State.returnAddress_issue (by omega)

/-- At `ipc = 32766` the return address is 32768, the first number that is no `V15` (R190). -/
theorem State.push_returnAddress_invalid {s : State} (hpc : s.pc.toNat = 32766) :
    (s.issue 1).push ((s.issue 1).pc.setWidth 21) = .error (.invalidNumber 32768) := by
  have haddr : (s.issue 1).pc.setWidth 21 = 32768 := by
    rw [State.returnAddress_issue (by omega), hpc]
    rfl
  rw [haddr]
  exact State.push_error.mpr (.inl (toValue_error.mpr ⟨by decide, rfl⟩))

/-! ## call -/

/-- A successful push is followed by the jump (R190). -/
theorem State.callTo_of_push {s u : State} (t : V15) (h : s.push (s.pc.setWidth 21) = .ok u) :
    s.callTo t = .ok (u.jump t) := by
  simp only [State.callTo, h]

/-- The jump cannot fault, so the faults of phase E are those of the push (R190). -/
theorem State.callTo_error {s : State} {t : V15} {e : Trap} :
    s.callTo t = .error e ↔ s.push (s.pc.setWidth 21) = .error e := by
  unfold State.callTo
  cases s.push (s.pc.setWidth 21) <;> simp

/-- With a readable target, `call` is the push and the jump (R190). -/
theorem exec_call_val {s : State} {a : Operand} {t : V15} (ha : s.val a = .ok t) :
    exec (.call a) s = execute 1 (fun s1 => s1.callTo t) s :=
  (exec_call a s).trans (execute_withVal 1 State.callTo ha)

section

variable {s : State} {a : Operand} {t : V15}

theorem exec_call_next (ha : s.val a = .ok t) (hpc : s.pc.toNat + 2 ≤ 32767) (hfull : s.stackFull = false) :
    exec (.call a) s =
      .next { s.traceStep with pc := t.setWidth 16, stack := BitVec.ofNat 15 (s.pc.toNat + 2) :: s.stack } := by
  have hpush := State.push_issue_of_not_full 1 hfull (BitVec.ofNat 15 (s.pc.toNat + 2))
  rw [← State.returnAddress_issue_of_le hpc] at hpush
  rw [exec_call_val ha]
  exact execute_of_ok (State.callTo_of_push t hpush)

theorem exec_call_invalid (ha : s.val a = .ok t) (hpc : s.pc.toNat = 32766) :
    exec (.call a) s = .next (faulted 1 .invalidNumber 32768 s) := by
  rw [exec_call_val ha]
  exact execute_faulted (.invalidNumber 32768) (State.callTo_error.mpr (State.push_returnAddress_invalid hpc))

theorem exec_call_overflow (ha : s.val a = .ok t) (hpc : s.pc.toNat + 2 ≤ 32767) (hfull : s.stackFull = true) :
    exec (.call a) s = .next (faulted 1 .stackOverflow (BitVec.ofNat 21 (s.pc.toNat + 2)) s) := by
  have hpush := State.push_issue_of_full 1 hfull (BitVec.ofNat 15 (s.pc.toNat + 2))
  rw [← State.returnAddress_issue_of_le hpc] at hpush
  rw [exec_call_val ha, ← setWidth_ofNat_value hpc]
  exact execute_faulted (.stackOverflow _) (State.callTo_error.mpr hpush)

end

/-! ## ret -/

theorem State.returnOrStop_of_cons {s : State} {t : V15} {rest : List V15} (hs : s.stack = t :: rest) :
    s.returnOrStop = { s with stack := rest }.jump t := by
  simp only [State.returnOrStop, hs]

theorem State.returnOrStop_of_empty {s : State} (hs : s.stack = []) : s.returnOrStop = s.stop .retEmpty := by
  simp only [State.returnOrStop, hs]

theorem exec_ret_next {s : State} {t : V15} {rest : List V15} (hs : s.stack = t :: rest) :
    exec .ret s = .next { s.traceStep with pc := t.setWidth 16, stack := rest } := by
  have hstack : (s.issue 0).stack = t :: rest := by rw [State.issue_stack, hs]
  have hret : (s.issue 0).returnOrStop = { s.traceStep with pc := t.setWidth 16, stack := rest } := by
    rw [State.returnOrStop_of_cons hstack, State.issue_eq]
    rfl
  rw [exec_ret]
  exact execute_of_ok (congrArg Except.ok hret)

theorem exec_ret_stop {s : State} (hs : s.stack = []) :
    exec .ret s = .next { s.traceStep with pc := s.pc + 1, run := .halted, cause := .retEmpty } := by
  have hstack : (s.issue 0).stack = [] := by rw [State.issue_stack, hs]
  have hstop : (s.issue 0).returnOrStop =
      { s.traceStep with pc := s.pc + 1, run := .halted, cause := .retEmpty } := by
    rw [State.returnOrStop_of_empty hstack, State.issue_eq]
    rfl
  rw [exec_ret]
  exact execute_of_ok (congrArg Except.ok hstop)

end Sys2Proof.Machine

namespace Sys2Proof

open Sys2Proof.Machine

/-! ## The rules of the family (R190, R191) -/

/-- Settles O26: the target is resolved first; then the range test of the return address and the capacity test decide
between the call and the two faults (R190). -/
theorem callPushesReturnAddress : Obligations.CallPushesReturnAddress := by
  refine ⟨fun _ => rfl, fun s => ⟨fun a t ha hpc hcap => ?_, fun a t ha hpc => ?_, fun a t ha hpc hcap => ?_, ?_⟩⟩
  · exact exec_call_next ha hpc (State.stackFull_eq_false_iff.mpr hcap)
  · exact exec_call_invalid ha hpc
  · exact exec_call_overflow ha hpc (State.stackFull_iff.mpr hcap)
  · exact valueFaults_of_exec fun a => exec_call a s

/-- Settles O27: the stack has a top or not, and that decides between the return and the clean stop (R191). -/
theorem retPopsOrStops : Obligations.RetPopsOrStops :=
  ⟨rfl, fun _ => ⟨fun _ _ hs => exec_ret_next hs, fun hs => exec_ret_stop hs⟩⟩

end Sys2Proof

/-! PROOFS. The output stream after phases F3 and T, and the instructions `out` and `noop` (R200, R202). -/

namespace Sys2Proof.Machine

/-! ## out -/

/-- An emitted code after phases F3 and T, as an update of the state the step began in. -/
theorem State.emit_issue (s : State) (n : Nat) (c : V15) :
    (s.issue n).emit c =
      { s.traceStep with pc := s.pc + BitVec.ofNat 16 (1 + n), out := s.out ++ [c] } := by
  rw [State.emit, State.issue_out, State.issue_eq]

/-- The whole next state of `out` with a readable operand (R200). -/
theorem exec_out_next {s : State} {a : Operand} {v : V15} (ha : s.val a = .ok v) :
    exec (.out a) s = .next { s.traceStep with pc := s.pc + 2, out := s.out ++ [v] } := by
  rw [exec_out, execute_withVal 1 (fun s1 c => .ok (s1.emit c)) ha]
  exact execute_of_ok (congrArg Except.ok (State.emit_issue s 1 v))

/-! ## noop -/

/-- The whole next state of `noop` is that of phases F3 and T (R202). -/
theorem exec_noop_next (s : State) : exec .noop s = .next { s.traceStep with pc := s.pc + 1 } := by
  rw [exec_noop]
  exact execute_of_ok (congrArg Except.ok (State.issue_eq 0 s))

end Sys2Proof.Machine

namespace Sys2Proof

open Sys2Proof.Machine

/-! ## The rules of the family (R200, R202) -/

/-- Settles O28: the operand is resolved, and its value as it stands is the code (R200). -/
theorem outEmitsCode : Obligations.OutEmitsCode :=
  ⟨fun _ => rfl, fun s => ⟨fun _ _ ha => exec_out_next ha, valueFaults_of_exec fun a => exec_out a s⟩⟩

/-- Settles O34: phases D and E of `noop` are empty (R202). -/
theorem noopOnlyAdvances : Obligations.NoopOnlyAdvances :=
  ⟨rfl, exec_noop_next⟩

end Sys2Proof

/-! PROOFS. The encoder and the decoder against each other, through the rows of the opcode table (R90 to R94, R103). -/

namespace Sys2Proof

/-! ## Operand words -/

/-- An operand that some word stands for is the class of that word (R91). -/
theorem Operand.ofWord_word {o : Operand} (h : o.encodable = true) : Operand.ofWord o.word = o := by
  cases o with
  | lit v =>
    have hword : (v.setWidth 16).toNat = v.toNat := BitVec.toNat_setWidth_of_le (by decide)
    have hle : (v.setWidth 16).toNat ≤ 32767 := hword.trans_le (Nat.le_of_lt_succ v.isLt)
    rw [Operand.word, Operand.ofWord_of_le hle, BitVec.setWidth_setWidth (by decide), BitVec.setWidth_eq]
  | reg i =>
    have hword : (BitVec.ofNat 16 (32768 + i.val)).toNat = 32768 + i.val := by
      rw [BitVec.toNat_ofNat, Nat.mod_eq_of_lt (by omega)]
    exact Operand.ofWord_of_eq_add hword
  | bad w => exact Operand.ofWord_of_ge (of_decide_eq_true h)

/-- Every word stands for the operand it is read as. -/
theorem Operand.encodable_ofWord (w : W16) : (Operand.ofWord w).encodable = true := by
  obtain hlit | ⟨i, hreg⟩ | hbad := word_class_cases w
  · rw [Operand.ofWord_of_le hlit]; rfl
  · rw [Operand.ofWord_of_eq_add hreg]; rfl
  · rw [Operand.ofWord_of_ge hbad]; exact decide_eq_true hbad

theorem Instr.encodable_of_operands {i : Instr} {os : List Operand} (hos : i.operands = os) :
    i.encodable = true ↔ ∀ o ∈ os, o.encodable = true := by
  rw [Instr.encodable, hos, List.all_eq_true]

/-! ## Decoding what was encoded, one lemma per format (R92) -/

section

variable {op : W16} {n : Nat}

theorem decode_op0 {i : Instr} (hrow : opcodeRow op = some ⟨n, .op0 i⟩) (rest : List W16) :
    decode ([op] ++ rest) = .ok (i, rest) :=
  decode_of_row hrow rest

theorem decode_op1 {mk : Operand → Instr} {a : Operand} (hrow : opcodeRow op = some ⟨n, .op1 mk⟩)
    (hos : (mk a).operands = [a]) (h : (mk a).encodable = true) (rest : List W16) :
    decode ([op, a.word] ++ rest) = .ok (mk a, rest) := by
  obtain ⟨ha, -⟩ := List.forall_mem_cons.mp ((Instr.encodable_of_operands hos).mp h)
  rw [List.cons_append, decode_of_row hrow, List.cons_append, Format.decode, Operand.ofWord_word ha, List.nil_append]

theorem decode_op2 {mk : Operand → Operand → Instr} {a b : Operand} (hrow : opcodeRow op = some ⟨n, .op2 mk⟩)
    (hos : (mk a b).operands = [a, b]) (h : (mk a b).encodable = true) (rest : List W16) :
    decode ([op, a.word, b.word] ++ rest) = .ok (mk a b, rest) := by
  obtain ⟨ha, hb, -⟩ : a.encodable = true ∧ b.encodable = true ∧ _ := by
    simpa only [List.forall_mem_cons] using (Instr.encodable_of_operands hos).mp h
  rw [List.cons_append, decode_of_row hrow, List.cons_append, List.cons_append, Format.decode,
    Operand.ofWord_word ha, Operand.ofWord_word hb, List.nil_append]

theorem decode_op3 {mk : Operand → Operand → Operand → Instr} {a b c : Operand}
    (hrow : opcodeRow op = some ⟨n, .op3 mk⟩) (hos : (mk a b c).operands = [a, b, c])
    (h : (mk a b c).encodable = true) (rest : List W16) :
    decode ([op, a.word, b.word, c.word] ++ rest) = .ok (mk a b c, rest) := by
  obtain ⟨ha, hb, hc, -⟩ : a.encodable = true ∧ b.encodable = true ∧ c.encodable = true ∧ _ := by
    simpa only [List.forall_mem_cons] using (Instr.encodable_of_operands hos).mp h
  rw [List.cons_append, decode_of_row hrow, List.cons_append, List.cons_append, List.cons_append, Format.decode,
    Operand.ofWord_word ha, Operand.ofWord_word hb, Operand.ofWord_word hc, List.nil_append]

end

/-- Settles O2: the opcode word finds the row of the instruction's format, which takes the operand words back (R90, R94). -/
theorem decodeOfEncode : Obligations.DecodeOfEncode := by
  intro i rest h
  cases i with
  | halt => exact decode_op0 rfl rest
  | set a b => exact decode_op2 rfl rfl h rest
  | push a => exact decode_op1 rfl rfl h rest
  | pop a => exact decode_op1 rfl rfl h rest
  | eq a b c => exact decode_op3 rfl rfl h rest
  | gt a b c => exact decode_op3 rfl rfl h rest
  | jmp a => exact decode_op1 rfl rfl h rest
  | jt a b => exact decode_op2 rfl rfl h rest
  | jf a b => exact decode_op2 rfl rfl h rest
  | add a b c => exact decode_op3 rfl rfl h rest
  | mult a b c => exact decode_op3 rfl rfl h rest
  | mod a b c => exact decode_op3 rfl rfl h rest
  | and a b c => exact decode_op3 rfl rfl h rest
  | or a b c => exact decode_op3 rfl rfl h rest
  | not a b => exact decode_op2 rfl rfl h rest
  | rmem a b => exact decode_op2 rfl rfl h rest
  | wmem a b => exact decode_op2 rfl rfl h rest
  | call a => exact decode_op1 rfl rfl h rest
  | ret => exact decode_op0 rfl rest
  | out a => exact decode_op1 rfl rfl h rest
  | input a => exact decode_op1 rfl rfl h rest
  | noop => exact decode_op0 rfl rest

/-! ## Encoding what was decoded -/

/-- The encoder writes the instructions of this row as the row reads them: the row's opcode word, then the words of the
operands in their order (R92, R94). -/
def OpcodeRow.Encodes : OpcodeRow → Prop
  | ⟨n, .op0 i⟩ => i.operands = [] ∧ encode i = [BitVec.ofNat 16 n]
  | ⟨n, .op1 make⟩ => ∀ a, (make a).operands = [a] ∧ encode (make a) = [BitVec.ofNat 16 n, a.word]
  | ⟨n, .op2 make⟩ => ∀ a b, (make a b).operands = [a, b] ∧ encode (make a b) = [BitVec.ofNat 16 n, a.word, b.word]
  | ⟨n, .op3 make⟩ => ∀ a b c,
      (make a b c).operands = [a, b, c] ∧ encode (make a b c) = [BitVec.ofNat 16 n, a.word, b.word, c.word]

theorem opcodeTable_encodes : ∀ r ∈ opcodeTable, r.Encodes := by
  simp [opcodeTable, OpcodeRow.Encodes, Instr.operands, encode]

/-- What a row's format makes of the words after the opcode word is encoded as those words, and has an encoding. -/
theorem OpcodeRow.Encodes.decode_eq {r : OpcodeRow} (hr : r.Encodes) {ws rest : List W16} {i : Instr}
    (h : r.format.decode ws = .ok (i, rest)) :
    i.encodable = true ∧ BitVec.ofNat 16 r.opcode :: ws = encode i ++ rest := by
  obtain ⟨n, f⟩ := r
  cases f with
  | op0 j =>
    obtain ⟨hos, henc⟩ := hr
    cases h
    simp [Instr.encodable, hos, henc]
  | op1 mk =>
    match ws, h with
    | a :: ws, h =>
      obtain ⟨hos, henc⟩ := hr (.ofWord a)
      cases h
      simp [Instr.encodable, hos, henc, Operand.encodable_ofWord]
  | op2 mk =>
    match ws, h with
    | a :: b :: ws, h =>
      obtain ⟨hos, henc⟩ := hr (.ofWord a) (.ofWord b)
      cases h
      simp [Instr.encodable, hos, henc, Operand.encodable_ofWord]
  | op3 mk =>
    match ws, h with
    | a :: b :: c :: ws, h =>
      obtain ⟨hos, henc⟩ := hr (.ofWord a) (.ofWord b) (.ofWord c)
      cases h
      simp [Instr.encodable, hos, henc, Operand.encodable_ofWord]

/-- Everything a successful decoding says of the words: the opcode word has a row, whose format read the rest. -/
theorem decode_ok {ws rest : List W16} {i : Instr} (h : decode ws = .ok (i, rest)) :
    ∃ op tail r, ws = op :: tail ∧ opcodeRow op = some r ∧ r.format.decode tail = .ok (i, rest) := by
  cases ws with
  | nil => cases h
  | cons op tail =>
    cases hr : opcodeRow op with
    | none => rw [decode_of_no_row hr] at h; cases h
    | some r => rw [decode_of_row hr] at h; exact ⟨op, tail, r, rfl, hr, h⟩

/-- Settles O3: the words are those of the row's instructions, and the row's number is the opcode word (R90, R94). -/
theorem encodeOfDecode : Obligations.EncodeOfDecode := by
  intro ws rest i h
  obtain ⟨op, tail, r, rfl, hrow, hdec⟩ := decode_ok h
  obtain ⟨hmem, hop⟩ := opcodeRow_mem hrow
  have hword : BitVec.ofNat 16 r.opcode = op := by rw [hop, BitVec.ofNat_toNat, BitVec.setWidth_eq]
  rw [← hword]
  exact (opcodeTable_encodes r hmem).decode_eq hdec

/-! ## Lengths -/

/-- The operand counts of the table, row for row (R94). -/
theorem opcodeTable_arities :
    opcodeTable.map (fun r => r.format.arity) = [0, 2, 1, 1, 3, 3, 1, 2, 2, 3, 3, 3, 3, 3, 2, 2, 2, 1, 0, 1, 1, 0] := rfl

/-- The row of an opcode word stands in the table at that word's number (R94). -/
theorem opcodeRow_eq_getElem? (op : W16) : opcodeRow op = opcodeTable[op.toNat]? := by
  by_cases hop : 21 < op.toNat
  · rw [(opcodeRow_eq_none_iff op).mpr hop, List.getElem?_eq_none hop]
  · have hrows : ∀ n < 22, opcodeTable.find? (fun r => r.opcode == n) = opcodeTable[n]? := by
      intro n hn
      interval_cases n <;> rfl
    exact hrows op.toNat (by omega)

/-- Settles O4: the counts are the table's column, and an instruction is its opcode word and its operand words (R94,
R103). -/
theorem opcodeWordFixesLength : Obligations.OpcodeWordFixesLength := by
  refine ⟨fun op => ?_, fun op ws rest i n hdec harity => ?_⟩
  · rw [opcodeArity, opcodeRow_eq_getElem?, ← opcodeTable_arities, List.getElem?_map]
  · obtain ⟨r, hrow, rfl⟩ := Option.map_eq_some_iff.mp harity
    rw [decode_of_row hrow] at hdec
    have hcount := opcodeTable_arity r (opcodeRow_mem hrow).1 ws rest i hdec
    rw [(Laws.EncodedLength.of_any i).1, hcount]

/-- Settles O1: each opcode word has the row written beside it, and each operand word the class of its range (R91, R94). -/
theorem writtenOutWordsDecode : Obligations.WrittenOutWordsDecode := by
  refine ⟨?_, ?_, ?_, ?_, ?_, ?_, ?_, ?_, ?_, ?_, ?_⟩ <;> decide

end Sys2Proof

/-! PROOFS. The invariant at reset and under every step (R26, R28, R31, R62, R212, R270). What a launched core keeps whatever
an instruction does is named once (`State.CoreInv`); the invariant of the state after a step is that and how the step ended. -/

namespace Sys2Proof.Machine

/-! ## What a launched core keeps -/

/-- The part of the invariant that the operations of an instruction are answerable for, in a launched core. -/
structure State.CoreInv (s : State) : Prop where
  pc_range : s.pc.toNat ≤ 32768
  mem_wf : s.mem.wf = true
  stack_cap : ∀ k, s.params.stackCap = some k → s.stack.length ≤ k
  launched : s.launch = .started

/-- A core in the midst of an instruction, with no `in` in flight. -/
structure State.Executing (s : State) : Prop where
  core : s.CoreInv
  run_eq : s.run = .running
  cause_eq : s.cause = .none
  hold_eq : s.hold = none

/-- A core in the midst of the `in` that `p` describes. -/
structure State.Reading (s : State) (p : PendingIn) : Prop where
  core : s.CoreInv
  cause_eq : s.cause = .none
  holds : s.holdInv p

theorem State.Inv.coreInv {s : State} (h : s.Inv) (hl : s.launch = .started) : s.CoreInv :=
  ⟨h.pc_range, h.mem_wf, h.stack_cap, hl⟩

/-- Nothing but the pc, memory, the stack, its capacity and the launch position matters to what a launched core keeps. -/
theorem State.CoreInv.congr {s t : State} (h : s.CoreInv)
    (ht : (t.pc, t.mem, t.params, t.stack, t.launch) = (s.pc, s.mem, s.params, s.stack, s.launch)) : t.CoreInv := by
  simp only [Prod.mk.injEq] at ht
  obtain ⟨hpc, hmem, hparams, hstack, hlaunch⟩ := ht
  exact ⟨hpc ▸ h.pc_range, hmem ▸ h.mem_wf, hparams ▸ hstack ▸ h.stack_cap, hlaunch.trans h.launched⟩

/-- In a launched core the rest of the invariant is how the step ended: its cause, and the `in` it may have left holding. -/
theorem State.CoreInv.inv {s : State} (h : s.CoreInv) (hcause : s.cause = .none ↔ s.run = .running)
    (hload : s.cause ≠ .loadError) (hhold : ∀ p, s.hold = some p → s.holdInv p) : s.Inv where
  pc_range := h.pc_range
  mem_wf := h.mem_wf
  cause_none := hcause
  stack_cap := h.stack_cap
  hold_ok := hhold
  before_start := fun hl => absurd h.launched hl
  load_error := fun hc => absurd hc hload

theorem State.Executing.inv {s : State} (h : s.Executing) : s.Inv :=
  h.core.inv (iff_of_true h.cause_eq h.run_eq) (by simp [h.cause_eq]) (by simp [h.hold_eq])

/-- A launched core that has stopped without an `in` in flight, whatever for. -/
theorem State.CoreInv.inv_of_halted {s : State} (h : s.CoreInv) (hrun : s.run = .halted) (hhold : s.hold = none)
    (hcause : s.cause ≠ .none) (hload : s.cause ≠ .loadError) : s.Inv :=
  h.inv (iff_of_false hcause (by simp [hrun])) hload (by simp [hhold])

theorem Trap.cause_ne_none (e : Trap) : e.cause ≠ .none := by cases e <;> simp [Trap.cause]

/-- A fault that is no load error ends the instruction within the invariant (R236). -/
theorem State.Executing.inv_raise {s : State} (h : s.Executing) {e : Trap} (he : e.cause ≠ .loadError) (ipc : W16) :
    (s.raise e ipc).Inv :=
  State.CoreInv.inv_of_halted (h.core.congr rfl) rfl h.hold_eq
    e.cause_ne_none he

/-- A stop that is no load error ends the instruction within the invariant (R231). -/
theorem State.Executing.inv_stop {s : State} (h : s.Executing) {c : Cause} (hc : c ≠ .none) (hload : c ≠ .loadError) :
    (s.stop c).Inv :=
  State.CoreInv.inv_of_halted (h.core.congr rfl) rfl h.hold_eq hc hload

/-! ## The operations of phases D and E -/

theorem State.Executing.setReg {s : State} (h : s.Executing) (i : R3) (v : V15) : (s.setReg i v).Executing :=
  ⟨h.core.congr rfl, h.run_eq, h.cause_eq, h.hold_eq⟩

theorem State.Executing.emit {s : State} (h : s.Executing) (c : V15) : (s.emit c).Executing :=
  ⟨h.core.congr rfl, h.run_eq, h.cause_eq, h.hold_eq⟩

theorem State.Executing.memWrite {s : State} (h : s.Executing) (a : A15) (w : W16) : (s.memWrite a w).Executing :=
  ⟨⟨h.core.pc_range, Memory.wf_write a w h.core.mem_wf, h.core.stack_cap, h.core.launched⟩, h.run_eq, h.cause_eq,
    h.hold_eq⟩

/-- A jump target is a `V15`, so it is in the pc's range (R25). -/
theorem State.Executing.jump {s : State} (h : s.Executing) (t : V15) : (s.jump t).Executing := by
  have htarget : (t.setWidth 16).toNat = t.toNat := BitVec.toNat_setWidth_of_le (by decide)
  exact ⟨⟨htarget.trans_le (by omega), h.core.mem_wf, h.core.stack_cap, h.core.launched⟩, h.run_eq, h.cause_eq,
    h.hold_eq⟩

/-- The capacity test leaves room for one more entry (R28). -/
theorem State.Executing.push {s : State} (h : s.Executing) (hfull : s.stackFull = false) (v : V15) :
    State.Executing { s with stack := v :: s.stack } := by
  refine ⟨⟨h.core.pc_range, h.core.mem_wf, fun k hk => ?_, h.core.launched⟩, h.run_eq, h.cause_eq, h.hold_eq⟩
  have hle : s.stack.length ≤ k := h.core.stack_cap k hk
  have hne : k ≠ s.stack.length := fun heq => State.stackFull_eq_false_iff.mp hfull (heq ▸ hk)
  simp only [List.length_cons]
  omega

theorem State.Executing.pop {s : State} (h : s.Executing) {v : V15} {rest : List V15} (hs : s.stack = v :: rest) :
    State.Executing { s with stack := rest } := by
  refine ⟨⟨h.core.pc_range, h.core.mem_wf, fun k hk => ?_, h.core.launched⟩, h.run_eq, h.cause_eq, h.hold_eq⟩
  have hle : (v :: rest).length ≤ k := hs ▸ h.core.stack_cap k hk
  exact (Nat.le_succ _).trans hle

/-! ## The `in` -/

/-- What is left of the script has no part in the invariant of a core in the midst of an instruction. -/
theorem State.Executing.setScripted {s : State} (h : s.Executing) (cs : List Code) (lines : List (List Code)) :
    State.Executing { s with cur := cs, script := lines } :=
  ⟨h.core.congr rfl, h.run_eq, h.cause_eq, h.hold_eq⟩

/-- A delivery ends the `in`, with the character or with the range fault (R201). -/
theorem State.Executing.inv_deliver {s : State} (h : s.Executing) (p : PendingIn) (c : Code) : (s.deliver p c).Inv := by
  obtain ⟨-, hc⟩ | ⟨-, hc⟩ := State.deliver_cases p c s <;> rw [hc]
  · exact ((h.emit _).setReg _ _).inv
  · exact h.inv_raise (by simp [Trap.cause]) _

/-- An `in` that takes no more events, the live source being `es` then. -/
theorem State.Reading.executing {s : State} {p : PendingIn} (h : s.Reading p) (es : List LiveEvent) :
    State.Executing { s with live := es, hold := none } :=
  ⟨h.core.congr rfl, h.holds.1, h.cause_eq, rfl⟩

/-- The line read so far may change where there is a sentinel (R210). -/
theorem State.Reading.setLine {s : State} {p : PendingIn} (h : s.Reading p) {line : Option (List Code)}
    (hline : s.params.sentinel = none → line = none) : s.Reading { p with line := line } := by
  obtain ⟨hrun, hlaunch, hpc, hcur, hscript, -⟩ := h.holds
  exact ⟨h.core, h.cause_eq, hrun, hlaunch, hpc, hcur, hscript, hline⟩

/-- A line being read shows that there is a sentinel (R210). -/
theorem State.Reading.sentinel_ne_none {s : State} {p : PendingIn} {l : List Code} (h : s.Reading p)
    (hl : p.line = some l) : s.params.sentinel ≠ none := by
  obtain ⟨-, -, -, -, -, hsent⟩ := h.holds
  intro hnone
  cases hl.symm.trans (hsent hnone)

/-- A command line leaves what the `in` rests on (R250 to R254). -/
theorem State.Reading.command {s : State} {p : PendingIn} (h : s.Reading p) (l : List Code) :
    (s.command l).Reading p := by
  refine ⟨⟨?_, State.command_mem_wf l h.core.mem_wf, ?_, ?_⟩, ?_, ?_⟩
  · rw [State.command_pc]; exact h.core.pc_range
  · rw [State.command_params, State.command_stack]; exact h.core.stack_cap
  · rw [State.command_launch]; exact h.core.launched
  · rw [State.command_cause]; exact h.cause_eq
  · simpa only [State.holdInv, State.command_run, State.command_launch, State.command_pc, State.command_cur,
      State.command_script, State.command_params] using h.holds

/-- Whatever events an `in` is offered, it ends or holds within the invariant (R210 to R213). -/
theorem State.Reading.inv_serveLive {s : State} {p : PendingIn} (h : s.Reading p) (es : List LiveEvent) :
    (s.serveLive p es).Inv := by
  refine State.serveLive_induct (Q := State.Reading) (R := State.Inv) ?sentinel ?char ?command ?holds ?ends ?delivers
    es s p h
  case sentinel =>
    intro s p c h _ hc
    obtain ⟨b, hb, -⟩ := State.isSentinel_iff.mp hc
    exact h.setLine (by simp [hb])
  case char =>
    intro s p l c h hl
    exact h.setLine fun hnone => absurd hnone (h.sentinel_ne_none hl)
  case command =>
    intro s p l h _
    exact (h.command l).setLine fun _ => rfl
  case holds =>
    intro s p h
    refine State.CoreInv.inv (h.core.congr rfl)
      (iff_of_true h.cause_eq h.holds.1) (by simp [h.cause_eq]) fun q hq => ?_
    cases hq
    exact h.holds
  case ends =>
    intro s p es h
    exact (h.executing es).inv_stop (by simp) (by simp)
  case delivers =>
    intro s p c es h _
    exact (h.executing es).inv_deliver p c

/-- One `in` from its beginning: a scripted character is delivered, or the live source is asked (R206). -/
theorem State.Executing.inv_takeInput {s : State} (h : s.Executing) {p : PendingIn} (hpc : p.ipc.toNat + 2 = s.pc.toNat)
    (hline : p.line = none) : (s.takeInput p).Inv := by
  obtain ⟨c, cs, lines, -, ht⟩ | ⟨-, ht⟩ := State.takeInput_cases p s <;> rw [ht]
  · exact (h.setScripted cs lines).inv_deliver p c
  · have hspent := h.setScripted [] []
    exact State.Reading.inv_serveLive ⟨hspent.core, hspent.cause_eq, hspent.run_eq, hspent.core.launched, hpc, rfl, rfl,
      fun _ => hline⟩ s.live

/-! ## An instruction -/

theorem State.Inv.executing {s : State} (h : s.Inv) (hready : s.ready) : s.Executing := by
  obtain ⟨hrun, hlaunch, hhold, -⟩ := hready
  exact ⟨h.coreInv hlaunch, hrun, h.cause_none.mpr hrun, hhold⟩

/-- The pc after phase F3 of a fetched instruction, as a number: nothing wraps (R26). -/
theorem State.issue_pc_toNat {s : State} {i : Instr} (hf : s.fetch = .ok i) :
    (s.issue i.operands.length).pc.toNat = s.pc.toNat + (1 + i.operands.length) := by
  have hbound := State.fetch_bound hf
  have hcount : (BitVec.ofNat 16 (1 + i.operands.length)).toNat = 1 + i.operands.length := by
    rw [BitVec.toNat_ofNat, Nat.mod_eq_of_lt (by omega)]
  rw [State.issue_pc, BitVec.toNat_add_of_lt (by rw [hcount]; omega), hcount]

/-- Phases F3 and T of a fetched instruction (R98). -/
theorem State.Executing.issue {s : State} (h : s.Executing) {i : Instr} (hf : s.fetch = .ok i) :
    (s.issue i.operands.length).Executing := by
  have hbound := State.fetch_bound hf
  refine ⟨⟨?_, ?_, ?_, ?_⟩, ?_, ?_, ?_⟩
  · rw [State.issue_pc_toNat hf]; omega
  · rw [State.issue_mem]; exact h.core.mem_wf
  · rw [State.issue_params, State.issue_stack]; exact h.core.stack_cap
  · rw [State.issue_launch]; exact h.core.launched
  · rw [State.issue_run]; exact h.run_eq
  · rw [State.issue_cause]; exact h.cause_eq
  · rw [State.issue_hold]; exact h.hold_eq

/-- Every effect of phases D and E ends within the invariant; the pc is past the opcode word and the operand words. -/
theorem State.Executing.inv_effect {s t : State} {i : Instr} (h : s.Executing) (hpc : i.operands.length < s.pc.toNat)
    (heff : Effect s i t) : t.Inv := by
  cases heff with
  | same => exact h.inv
  | write _ r v _ _ => exact (h.setReg r v).inv
  | push a v hfull => exact (h.push hfull v).inv
  | pop r v rest hs => exact ((h.pop hs).setReg r v).inv
  | jump _ u => exact (h.jump u).inv
  | store a b addr v _ _ => exact (h.memWrite addr _).inv
  | call a v u hfull => exact ((h.push hfull v).jump u).inv
  | ret v rest hs => exact ((h.pop hs).jump v).inv
  | halt => exact h.inv_stop (by simp) (by simp)
  | retEmpty _ => exact h.inv_stop (by simp) (by simp)
  | out a c => exact (h.emit c).inv
  | input r ipc hipc =>
    refine h.inv_takeInput ?_ rfl
    change 1 < s.pc.toNat at hpc
    show ipc.toNat + 2 = s.pc.toNat
    bv_omega

/-- A fetched instruction keeps the invariant. -/
theorem State.Inv.exec {s t : State} {i : Instr} (h : s.Inv) (hready : s.ready) (hf : s.fetch = .ok i)
    (ht : exec i s = .next t) : t.Inv := by
  have hissue : (s.issue i.operands.length).Executing := (h.executing hready).issue hf
  obtain heff | ⟨e, he, rfl⟩ := exec_effect ht
  · exact hissue.inv_effect (by rw [State.issue_pc_toNat hf]; omega) heff
  · exact hissue.inv_raise he s.pc

/-! ## The host's moves -/

/-- The host's side of the state is not in the invariant. -/
theorem State.Inv.setPorts {s : State} (h : s.Inv) (es : List LiveEvent) (ms : List HostMove) :
    State.Inv { s with live := es, requests := ms } where
  pc_range := h.pc_range
  mem_wf := h.mem_wf
  cause_none := h.cause_none
  stack_cap := h.stack_cap
  hold_ok := h.hold_ok
  before_start := h.before_start
  load_error := h.load_error

theorem State.inv_reset : State.reset.Inv where
  pc_range := by decide
  mem_wf := Memory.wf_reset
  cause_none := by decide
  stack_cap := by simp [State.reset]
  hold_ok := by simp [State.reset]
  before_start := fun _ => ⟨rfl, rfl, rfl, rfl, rfl, rfl, rfl, by decide, .inl rfl⟩
  load_error := by simp [State.reset]

/-- A reset leaves the reset values, under whatever parameters (R270). -/
theorem State.inv_resetBy (s : State) : s.resetBy.Inv where
  pc_range := State.inv_reset.pc_range
  mem_wf := State.inv_reset.mem_wf
  cause_none := State.inv_reset.cause_none
  stack_cap := fun _ _ => Nat.zero_le _
  hold_ok := fun _ hp => nomatch hp
  before_start := State.inv_reset.before_start
  load_error := State.inv_reset.load_error

/-- A core that is not started has no `in` in flight, so the script may be stored (R270, R271). -/
theorem State.Inv.setScript {s : State} (h : s.Inv) (hl : s.launch ≠ .started) (lines : List (List Code)) :
    State.Inv { s with script := lines } where
  pc_range := h.pc_range
  mem_wf := h.mem_wf
  cause_none := h.cause_none
  stack_cap := h.stack_cap
  hold_ok := fun _ hp => nomatch (h.before_start hl).1.symm.trans hp
  before_start := h.before_start
  load_error := h.load_error

theorem State.Inv.cause_of_running {s : State} (h : s.Inv) (hrun : s.run = .running) : s.cause = .none :=
  h.cause_none.mpr hrun

/-- `start` on a running core (R277). -/
theorem State.Inv.started {s : State} (h : s.Inv) (hrun : s.run = .running) :
    State.Inv { s with launch := .started } := by
  have hcause : s.cause = .none := h.cause_of_running hrun
  refine State.CoreInv.inv ⟨h.pc_range, h.mem_wf, h.stack_cap, rfl⟩ h.cause_none (by simp [hcause]) fun p hp => ?_
  obtain ⟨-, -, hheld⟩ := h.hold_ok p hp
  exact ⟨hrun, rfl, hheld⟩

/-- The operator's stop of a running core (R257). -/
theorem State.Inv.operatorStop {s : State} (h : s.Inv) : State.Inv (State.stop .operatorStop { s with hold := none }) where
  pc_range := h.pc_range
  mem_wf := h.mem_wf
  cause_none := by simp
  stack_cap := h.stack_cap
  hold_ok := fun _ hp => nomatch hp
  before_start := fun hl => by
    obtain ⟨-, hpc, hstack, hout, hdiag, hcur, htrace, hregs, -⟩ := h.before_start hl
    exact ⟨rfl, hpc, hstack, hout, hdiag, hcur, htrace, hregs, .inr (.inr rfl)⟩
  load_error := by simp

/-- The loader, on a core that is not started (R272 to R276). -/
theorem State.Inv.load {s : State} (h : s.Inv) (hl : s.launch = .atReset) (hrun : s.run = .running) (image : List Byte)
    (ending : StreamEnd) : (s.load image ending).Inv := by
  have hcause : s.cause = .none := h.cause_of_running hrun
  obtain ⟨hhold, hpc, hstack, hout, hdiag, hcur, htrace, hregs, hc⟩ := h.before_start (by simp [hl])
  unfold State.load
  cases imageWords image ending with
  | some ws =>
    exact {
      pc_range := h.pc_range
      mem_wf := Memory.wf_writeWords ws 0 h.mem_wf
      cause_none := h.cause_none
      stack_cap := h.stack_cap
      hold_ok := fun p hp => nomatch hhold.symm.trans hp
      before_start := fun _ => ⟨hhold, hpc, hstack, hout, hdiag, hcur, htrace, hregs, hc⟩
      load_error := fun he => nomatch hcause.symm.trans he }
  | none =>
    exact {
      pc_range := h.pc_range
      mem_wf := Memory.wf_writeCells _ rfl
      cause_none := by simp [State.loadFailure, Trap.cause]
      stack_cap := h.stack_cap
      hold_ok := fun p hp => nomatch hhold.symm.trans hp
      before_start := fun _ => ⟨hhold, hpc, hstack, hout, hdiag, hcur, htrace, hregs, .inr (.inl rfl)⟩
      load_error := fun _ => hl }

/-- Every move of the host that is served keeps the invariant (R258). -/
theorem State.Inv.serveHost {s t : State} {m : HostMove} (h : s.Inv) (ht : serveHost m s = .next t) : t.Inv := by
  obtain ⟨-, rfl⟩ | ⟨image, ending, -, hl, hrun, rfl⟩ | ⟨lines, -, hl, rfl⟩ | ⟨-, hrun, -, rfl⟩ | ⟨-, -, rfl⟩ |
    ⟨e, -, rfl⟩ | ⟨-, -, rfl⟩ | ⟨-, -, rfl⟩ := serveHost_cases ht
  · exact s.inv_resetBy
  · exact h.load hl hrun image ending
  · exact h.setScript hl lines
  · exact h.started hrun
  · exact h
  · exact h.setPorts _ _
  · exact h.operatorStop
  · exact h

end Sys2Proof.Machine

namespace Sys2Proof

open Sys2Proof.Machine

/-- Settles O58: the reset values, field by field (R42). -/
theorem invariantAtReset : Obligations.InvariantAtReset := State.inv_reset

/-- Settles O59: a step is a move of the host, a held `in` going on, a fault of the fetch or an instruction, and each keeps
the invariant. -/
theorem stepKeepsInvariant : Obligations.StepKeepsInvariant := by
  intro s t h ht
  obtain ⟨m, ms, -, hm⟩ | ⟨p, e, es, -, hrun, hlaunch, hhold, -, rfl⟩ | ⟨e, hready, he, rfl⟩ | ⟨i, hready, hf, hi⟩ :=
    step_cases ht
  · exact (h.setPorts s.live ms).serveHost hm
  · exact State.Reading.inv_serveLive ⟨h.coreInv hlaunch, h.cause_of_running hrun, h.hold_ok p hhold⟩ s.live
  · exact (h.executing hready).inv_raise (State.fetch_not_loadError he) s.pc
  · exact h.exec hready hf hi

end Sys2Proof

/-! PROOFS. What an instruction leaves unchanged: registers, memory, the stack, the outputs, the script (R22, R27, R34, R35,
R61). An `in` is looked at once for each part of the state; the rest is a case analysis over the effects of phases D and E. -/

namespace Sys2Proof.Machine

open Sys2Proof.Claims

/-! ## What an `in` leaves -/

/-- What a command line, a delivery, a stop and the fields of the live source each leave is left by the live source. -/
theorem State.serveLive_keeps {α : Type} {f : State → α} (hcommand : ∀ u l, f (State.command l u) = f u)
    (hports : ∀ (u : State) es h, f { u with live := es, hold := h } = f u)
    (hstop : ∀ u, f (State.stop .inputEof u) = f u) (hdeliver : ∀ p c u, f (State.deliver p c u) = f u)
    (es : List LiveEvent) (s : State) (p : PendingIn) : f (s.serveLive p es) = f s := by
  refine State.serveLive_induct (Q := fun u _ => f u = f s) (R := fun t => f t = f s)
    ?sentinel ?char ?command ?holds ?ends ?delivers es s p rfl
  case sentinel => exact fun _ _ _ h _ _ => h
  case char => exact fun _ _ _ _ h _ => h
  case command => exact fun u _ l h _ => (hcommand u l).trans h
  case holds => exact fun u q h => (hports u [] (some q)).trans h
  case ends => exact fun u _ es h => (hstop _).trans ((hports u es none).trans h)
  case delivers => exact fun u q c es h _ => (hdeliver q c _).trans ((hports u es none).trans h)

@[simp] theorem State.serveLive_stack (es : List LiveEvent) (s : State) (p : PendingIn) :
    (s.serveLive p es).stack = s.stack :=
  State.serveLive_keeps (f := State.stack) (fun u l => State.command_stack l u) (fun _ _ _ => rfl) (fun _ => rfl)
    State.deliver_stack es s p

@[simp] theorem State.serveLive_cur (es : List LiveEvent) (s : State) (p : PendingIn) :
    (s.serveLive p es).cur = s.cur :=
  State.serveLive_keeps (f := State.cur) (fun u l => State.command_cur l u) (fun _ _ _ => rfl) (fun _ => rfl)
    State.deliver_cur es s p

@[simp] theorem State.serveLive_script (es : List LiveEvent) (s : State) (p : PendingIn) :
    (s.serveLive p es).script = s.script :=
  State.serveLive_keeps (f := State.script) (fun u l => State.command_script l u) (fun _ _ _ => rfl) (fun _ => rfl)
    State.deliver_script es s p

@[simp] theorem State.takeInput_stack (s : State) (p : PendingIn) : (s.takeInput p).stack = s.stack := by
  obtain ⟨c, cs, lines, -, h⟩ | ⟨-, h⟩ := State.takeInput_cases p s <;> rw [h]
  · exact State.deliver_stack p c _
  · exact State.serveLive_stack s.live _ p

/-- Without a sentinel there is no console: the first event ends the `in`, or there is none and it holds (R210). -/
theorem State.serveLive_of_no_sentinel {s : State} {p : PendingIn} (hs : s.params.sentinel = none) (hl : p.line = none)
    (es : List LiveEvent) :
    s.serveLive p es = { s with live := [], hold := some p } ∨
      (∃ rest, s.serveLive p es = State.stop .inputEof { s with live := rest, hold := none }) ∨
      ∃ c rest, s.serveLive p es = State.deliver p c { s with live := rest, hold := none } := by
  cases es with
  | nil => exact .inl rfl
  | cons e rest =>
    cases e with
    | eof => exact .inr (.inl ⟨rest, rfl⟩)
    | char c => exact .inr (.inr ⟨c, rest, by simp [State.serveLive, hl, State.isSentinel_none hs]⟩)

/-- Without a sentinel an `in` writes no register but its target, and no memory (R201, R210). -/
theorem State.takeInput_of_no_sentinel {s : State} {p : PendingIn} (hs : s.params.sentinel = none) (hl : p.line = none) :
    (∀ r, r ≠ p.target → (s.takeInput p).reg r = s.reg r) ∧ (s.takeInput p).mem = s.mem := by
  obtain ⟨c, cs, lines, -, h⟩ | ⟨-, h⟩ := State.takeInput_cases p s
  · rw [h]
    exact ⟨fun r hr => State.deliver_reg_other p c _ hr, State.deliver_mem p c _⟩
  · obtain hlive | ⟨rest, hlive⟩ | ⟨c, rest, hlive⟩ :=
      State.serveLive_of_no_sentinel (s := { s with cur := [], script := [] }) hs hl s.live <;> rw [h, hlive]
    · exact ⟨fun _ _ => rfl, rfl⟩
    · exact ⟨fun _ _ => rfl, rfl⟩
    · exact ⟨fun r hr => State.deliver_reg_other p c _ hr, State.deliver_mem p c _⟩

/-! ## Registers, memory, stack -/

/-- The registers after the effects of an instruction (R22). -/
theorem Effect.reg_of_ne {s t : State} {i : Instr} {r : R3} (h : Effect s i t) (hr : t.reg r ≠ s.reg r) :
    (i.hasTarget = true ∧ i.operands.head? = some (.reg r)) ∨ consoleCanRun i s := by
  cases h with
  | write _ q v htarget hhead =>
    have hrq : r = q := by
      by_contra hne
      exact hr (State.reg_setReg_other s v hne)
    exact .inl ⟨htarget, hrq ▸ hhead⟩
  | pop q v rest _ =>
    have hrq : r = q := by
      by_contra hne
      exact hr (State.reg_setReg_other _ v hne)
    exact .inl ⟨rfl, hrq ▸ rfl⟩
  | input q ipc _ =>
    by_cases hrq : r = q
    · exact .inl ⟨rfl, hrq ▸ rfl⟩
    · exact .inr ⟨⟨_, rfl⟩, fun hs => hr ((State.takeInput_of_no_sentinel hs rfl).1 r hrq)⟩
  | _ => exact absurd rfl hr

/-- The memory after the effects of an instruction (R61, R64). -/
theorem Effect.mem_of_ne {s t : State} {i : Instr} {addr : Nat} (h : Effect s i t)
    (hm : t.mem.read addr ≠ s.mem.read addr) :
    (∃ a b v, i = .wmem a b ∧ s.val a = .ok v ∧ v.toNat = addr) ∨ consoleCanRun i s := by
  cases h with
  | store a b x v ha _ =>
    have haddr : addr = x.toNat := by
      by_contra hne
      exact hm (Memory.read_write_other s.mem x _ hne)
    exact .inl ⟨a, b, x, rfl, ha, haddr.symm⟩
  | input q ipc _ =>
    exact .inr ⟨⟨_, rfl⟩, fun hs => hm (by rw [(State.takeInput_of_no_sentinel hs rfl).2])⟩
  | _ => exact absurd rfl hm

/-- The stack after the effects of an instruction (R27, R29). -/
theorem Effect.stack_cases {s t : State} {i : Instr} (h : Effect s i t) :
    t.stack = s.stack ∨
      ((∃ v, t.stack = v :: s.stack) ∧ ∃ a, i = .push a ∨ i = .call a) ∨
      ((∃ v, s.stack = v :: t.stack) ∧ (i = .ret ∨ ∃ a, i = .pop a)) := by
  cases h with
  | push a v _ => exact .inr (.inl ⟨⟨v, rfl⟩, a, .inl rfl⟩)
  | pop q v rest hs => exact .inr (.inr ⟨⟨v, hs⟩, .inr ⟨_, rfl⟩⟩)
  | call a v u _ => exact .inr (.inl ⟨⟨v, rfl⟩, a, .inr rfl⟩)
  | ret v rest hs => exact .inr (.inr ⟨⟨v, hs⟩, .inl rfl⟩)
  | input q ipc _ => exact .inl (State.takeInput_stack s _)
  | _ => exact .inl rfl

/-! ## The outputs -/

/-- At most one character at the end of `OUT`, and records at the end of `DIAG` (R35). -/
def State.OutputGrows (s t : State) : Prop :=
  (t.out = s.out ∨ ∃ c, t.out = s.out ++ [c]) ∧ s.diag <+: t.diag

theorem State.OutputGrows.of_eq {s t : State} (hout : t.out = s.out) (hdiag : t.diag = s.diag) : s.OutputGrows t :=
  ⟨.inl hout, hdiag ▸ List.prefix_refl _⟩

theorem State.OutputGrows.out_prefix {s t : State} (h : s.OutputGrows t) : s.out <+: t.out := by
  obtain ⟨heq | ⟨c, heq⟩, -⟩ := h <;> rw [heq]
  exact List.prefix_append _ _

/-- A delivery at the end of an `in` whose console has added nothing to `OUT`. -/
theorem State.OutputGrows.deliver {s u : State} (hout : u.out = s.out) (hdiag : s.diag <+: u.diag) (p : PendingIn)
    (c : Code) : s.OutputGrows (u.deliver p c) := by
  refine ⟨?_, (State.deliver_diag p c u).symm ▸ hdiag⟩
  obtain h | ⟨v, h⟩ := State.deliver_out p c u <;> rw [h, hout]
  · exact .inl rfl
  · exact .inr ⟨v, rfl⟩

/-- The live source answers an `in` with at most one character; its console only writes to `DIAG` (R250). -/
theorem State.serveLive_outputGrows (es : List LiveEvent) (s : State) (p : PendingIn) :
    s.OutputGrows (s.serveLive p es) := by
  refine State.serveLive_induct (Q := fun u _ => u.out = s.out ∧ s.diag <+: u.diag) (R := s.OutputGrows)
    ?sentinel ?char ?command ?holds ?ends ?delivers es s p ⟨rfl, List.prefix_refl _⟩
  case sentinel => exact fun _ _ _ h _ _ => h
  case char => exact fun _ _ _ _ h _ => h
  case command =>
    exact fun u _ l ⟨hout, hdiag⟩ _ => ⟨(State.command_out l u).trans hout, hdiag.trans (State.command_diag_prefix l u)⟩
  case holds => exact fun _ _ ⟨hout, hdiag⟩ => ⟨.inl hout, hdiag⟩
  case ends => exact fun _ _ _ ⟨hout, hdiag⟩ => ⟨.inl hout, hdiag⟩
  case delivers =>
    intro u q c es ⟨hout, hdiag⟩ _
    exact State.OutputGrows.deliver (u := { u with live := es, hold := none }) hout hdiag q c

theorem State.takeInput_outputGrows (s : State) (p : PendingIn) : s.OutputGrows (s.takeInput p) := by
  obtain ⟨c, cs, lines, -, h⟩ | ⟨-, h⟩ := State.takeInput_cases p s <;> rw [h]
  · exact State.OutputGrows.deliver (u := { s with cur := cs, script := lines }) rfl (List.prefix_refl _) p c
  · exact State.serveLive_outputGrows s.live { s with cur := [], script := [] } p

/-- The outputs after the effects of an instruction (R35, R203). -/
theorem Effect.outputGrows {s t : State} {i : Instr} (h : Effect s i t) : s.OutputGrows t := by
  cases h with
  | out a c => exact ⟨.inr ⟨c, rfl⟩, List.prefix_refl _⟩
  | input q ipc _ => exact State.takeInput_outputGrows s _
  | _ => exact .of_eq rfl rfl

/-- Only `out` and `in` change `OUT` (R203). -/
theorem Effect.out_of_ne {s t : State} {i : Instr} (h : Effect s i t) (ht : t.out ≠ s.out) :
    ∃ a, i = .out a ∨ i = .input a := by
  cases h with
  | out a c => exact ⟨a, .inl rfl⟩
  | input q ipc _ => exact ⟨_, .inr rfl⟩
  | _ => exact absurd rfl ht

/-- Phases F3 and T write at most a trace record (R33). -/
theorem State.issue_diag_prefix (s : State) (n : Nat) : s.diag <+: (s.issue n).diag := by
  rw [State.issue_eq]
  cases h : s.trace with
  | false => rw [State.traceStep_off h]
  | true => rw [State.traceStep_on h]; exact List.prefix_append _ _

theorem exec_outputGrows {i : Instr} {s t : State} (h : exec i s = .next t) : s.OutputGrows t := by
  have hdiag := s.issue_diag_prefix i.operands.length
  obtain heff | ⟨e, -, rfl⟩ := exec_effect h
  · obtain ⟨hout, hgrows⟩ := heff.outputGrows
    rw [State.issue_out] at hout
    exact ⟨hout, hdiag.trans hgrows⟩
  · exact ⟨.inl (State.issue_out s _), hdiag⟩

/-- A move of the host other than a reset touches no output (R258). -/
theorem serveHost_output {m : HostMove} {s t : State} (h : serveHost m s = .next t) (hm : m ≠ .rst) :
    t.out = s.out ∧ t.diag = s.diag := by
  obtain ⟨rfl, -⟩ | ⟨image, ending, -, -, -, rfl⟩ | ⟨lines, -, -, rfl⟩ | ⟨-, -, -, rfl⟩ | ⟨-, -, rfl⟩ | ⟨e, -, rfl⟩ |
    ⟨-, -, rfl⟩ | ⟨-, -, rfl⟩ := serveHost_cases h
  · exact absurd rfl hm
  · unfold State.load
    cases imageWords image ending <;> exact ⟨rfl, rfl⟩
  all_goals exact ⟨rfl, rfl⟩

theorem step_outputGrows {s t : State} (h : step s = .next t) (hrst : ∀ ms, s.requests ≠ .rst :: ms) :
    s.OutputGrows t := by
  obtain ⟨m, ms, hreq, hm⟩ | ⟨p, e, es, -, -, -, -, -, rfl⟩ | ⟨e, -, -, rfl⟩ | ⟨i, -, -, hi⟩ := step_cases h
  · obtain ⟨hout, hdiag⟩ := serveHost_output hm fun hm => hrst ms (hm ▸ hreq)
    exact .of_eq hout hdiag
  · exact State.serveLive_outputGrows s.live s p
  · exact .of_eq rfl rfl
  · exact exec_outputGrows hi

/-! ## The script -/

/-- Only `in` takes from the script (R34). -/
theorem Effect.script_of_not_input {s t : State} {i : Instr} (h : Effect s i t) (hi : ∀ a, i ≠ .input a) :
    t.cur = s.cur ∧ t.script = s.script := by
  cases h with
  | input q ipc _ => exact absurd rfl (hi _)
  | _ => exact ⟨rfl, rfl⟩

/-- An `in` takes the first character of the queue, or there is none (R206, R208). -/
theorem State.takeInput_queue (s : State) (p : PendingIn) :
    (s.takeInput p).cur ++ (s.takeInput p).script.flatten = s.cur ++ s.script.flatten ∨
      ∃ c, s.cur ++ s.script.flatten = c :: ((s.takeInput p).cur ++ (s.takeInput p).script.flatten) := by
  obtain ⟨hnext, hqueue⟩ | ⟨c, cs, lines, hnext, hqueue⟩ := nextScripted_queue s.cur s.script
  · refine .inl ?_
    rw [State.takeInput, hnext, hqueue, State.serveLive_cur, State.serveLive_script]
    rfl
  · refine .inr ⟨c, ?_⟩
    rw [State.takeInput, hnext, hqueue, State.deliver_cur, State.deliver_script]

/-- The queue after the effects of an instruction (R34). -/
theorem Effect.queue_cases {s t : State} {i : Instr} (h : Effect s i t) :
    t.cur ++ t.script.flatten = s.cur ++ s.script.flatten ∨
      ∃ c, s.cur ++ s.script.flatten = c :: (t.cur ++ t.script.flatten) := by
  by_cases hi : ∃ a, i = .input a
  · obtain ⟨a, rfl⟩ := hi
    cases h with
    | input q ipc _ => exact s.takeInput_queue _
    | _ => exact .inl rfl
  · obtain ⟨hcur, hscript⟩ := h.script_of_not_input fun a ha => hi ⟨a, ha⟩
    exact .inl (by rw [hcur, hscript])

end Sys2Proof.Machine

namespace Sys2Proof

open Sys2Proof.Machine

/-! ## The statements about every instruction -/

/-- Settles O49: a fault writes no register, and of the effects only a register write and an `in` do (R22). -/
theorem onlyTheTargetRegisterChanges : Obligations.OnlyTheTargetRegisterChanges := by
  intro i s t r ht hr
  obtain heff | ⟨e, -, rfl⟩ := exec_effect ht
  · have heffect := heff.reg_of_ne (r := r) (by rwa [State.reg_issue])
    rwa [Claims.consoleCanRun, State.issue_params] at heffect
  · exact absurd (by rw [State.reg_raise, State.reg_issue]) hr

/-- Settles O50: a fault writes no memory, and of the effects only a store and an `in` do (R61). -/
theorem onlyWmemChangesMemory : Obligations.OnlyWmemChangesMemory := by
  intro i s t addr ht hm
  obtain heff | ⟨e, -, rfl⟩ := exec_effect ht
  · have heffect := heff.mem_of_ne (addr := addr) (by rwa [State.issue_mem])
    simpa only [Claims.consoleCanRun, State.issue_params, State.val_issue] using heffect
  · exact absurd (by rw [State.raise_mem, State.issue_mem]) hm

/-- Settles O51: a fault leaves the stack, and so does every effect but a push, a pop, a call and a return (R27). -/
theorem onlyStackInstructionsMoveTheStack : Obligations.OnlyStackInstructionsMoveTheStack := by
  intro i s t ht
  obtain heff | ⟨e, -, rfl⟩ := exec_effect ht
  · have heffect := heff.stack_cases
    rwa [State.issue_stack] at heffect
  · exact .inl (State.issue_stack s _)

/-- Settles O52: no step but a reset takes anything away, and of the effects only an emission and an `in` add a character
(R35). -/
theorem outputIsAppendOnly : Obligations.OutputIsAppendOnly := by
  refine ⟨fun s t ht hrst => ?_, fun i s t ht => ?_⟩
  · have hgrows := step_outputGrows ht hrst
    exact ⟨hgrows.out_prefix, hgrows.2⟩
  · obtain heff | ⟨e, -, rfl⟩ := exec_effect ht
    · obtain hsame | hmore := (exec_outputGrows ht).1
      · exact .inl hsame
      · by_cases hne : t.out = s.out
        · exact .inl hne
        · exact .inr ⟨hmore, heff.out_of_ne (by rwa [State.issue_out])⟩
    · exact .inl (State.issue_out s _)

/-- Settles O53: a fault leaves the queue, and so does every effect but an `in`, which takes its first character (R34). -/
theorem scriptIsDrainedInOrder : Obligations.ScriptIsDrainedInOrder := by
  intro i s t ht
  obtain heff | ⟨e, -, rfl⟩ := exec_effect ht
  · have hother := heff.script_of_not_input
    have hqueue := heff.queue_cases
    rw [State.issue_cur, State.issue_script] at hother hqueue
    exact ⟨hother, hqueue⟩
  · refine ⟨fun _ => ⟨State.issue_cur s _, State.issue_script s _⟩, .inl ?_⟩
    rw [State.raise_cur, State.raise_script, State.issue_cur, State.issue_script]

end Sys2Proof

/-! PROOFS. How a step ends (R8, R30), and what a program can observe of the control state (R33, R41). -/

namespace Sys2Proof.Machine

/-! ## The four outcomes -/

/-- `t` shows one of the four outcomes of a step that began in `s` (R8). -/
def State.ShowsOutcome (s t : State) : Prop :=
  (t.run = .running ∧ t.hold = none ∧ t.cause = .none) ∨
    (t.run = .halted ∧ t.hold = none ∧ (t.cause = .haltInstr ∨ t.cause = .retEmpty ∨ t.cause = .inputEof) ∧
      t.fpc = s.fpc ∧ t.finfo = s.finfo) ∨
    (t.run = .halted ∧ t.hold = none ∧ t.cause.isFault = true ∧ t.cause ≠ .loadError ∧ t.fpc = s.pc) ∨
    (t.run = .running ∧ t.cause = .none ∧ t.live = [] ∧ ∃ p, t.hold = some p ∧ p.ipc = s.pc ∧ t.pc = s.pc + 2)

/-- `u` is in the midst of the step that began in `s`: nothing has ended it so far. -/
structure State.Midstep (s u : State) : Prop where
  run_eq : u.run = .running
  cause_eq : u.cause = .none
  hold_eq : u.hold = none
  fpc_eq : u.fpc = s.fpc
  finfo_eq : u.finfo = s.finfo

theorem State.Midstep.shows_stop {s u : State} (h : s.Midstep u) {c : Cause}
    (hc : c = .haltInstr ∨ c = .retEmpty ∨ c = .inputEof) : s.ShowsOutcome (u.stop c) :=
  .inr (.inl ⟨rfl, h.hold_eq, hc, h.fpc_eq, h.finfo_eq⟩)

theorem Trap.cause_isFault (e : Trap) : e.cause.isFault = true := by cases e <;> rfl

theorem State.Midstep.shows_fault {s u : State} (h : s.Midstep u) {e : Trap} (he : e.cause ≠ .loadError) {ipc : W16}
    (hipc : ipc = s.pc) : s.ShowsOutcome (u.raise e ipc) :=
  .inr (.inr (.inl ⟨rfl, h.hold_eq, e.cause_isFault, he, hipc⟩))

theorem State.Midstep.shows_delivery {s u : State} (h : s.Midstep u) {p : PendingIn} (hp : p.ipc = s.pc) (c : Code) :
    s.ShowsOutcome (u.deliver p c) := by
  obtain ⟨-, hc⟩ | ⟨-, hc⟩ := State.deliver_cases p c u <;> rw [hc]
  · exact .inl ⟨h.run_eq, h.hold_eq, h.cause_eq⟩
  · exact h.shows_fault (by simp [Trap.cause]) hp

/-- The `in` has not been ended by what it was offered so far: only its line and what the console writes have changed. -/
def State.Awaits (s u : State) (p : PendingIn) : Prop :=
  s.Midstep u ∧ u.pc = s.pc + 2 ∧ p.ipc = s.pc

theorem State.Awaits.command {s u : State} {p : PendingIn} (h : s.Awaits u p) (l : List Code) :
    s.Awaits (u.command l) p := by
  obtain ⟨⟨hrun, hcause, hhold, hfpc, hfinfo⟩, hpc, hipc⟩ := h
  exact ⟨⟨(State.command_run l u).trans hrun, (State.command_cause l u).trans hcause,
    (State.command_hold l u).trans hhold, (State.command_fpc l u).trans hfpc, (State.command_finfo l u).trans hfinfo⟩,
    (State.command_pc l u).trans hpc, hipc⟩

/-- An `in` that takes no more events, the live source being `es` then. -/
theorem State.Awaits.midstep {s u : State} {p : PendingIn} (h : s.Awaits u p) (es : List LiveEvent) :
    s.Midstep { u with live := es, hold := none } := by
  obtain ⟨⟨hrun, hcause, -, hfpc, hfinfo⟩, -⟩ := h
  exact ⟨hrun, hcause, rfl, hfpc, hfinfo⟩

theorem State.Awaits.shows_serveLive {s u : State} {p : PendingIn} (h : s.Awaits u p) (es : List LiveEvent) :
    s.ShowsOutcome (u.serveLive p es) := by
  refine State.serveLive_induct (Q := s.Awaits) (R := s.ShowsOutcome) ?sentinel ?char ?command ?holds ?ends ?delivers
    es u p h
  case sentinel => exact fun _ _ _ h _ _ => h
  case char => exact fun _ _ _ _ h _ => h
  case command => exact fun _ _ l h _ => h.command l
  case holds =>
    intro u q ⟨hmid, hpc, hipc⟩
    exact .inr (.inr (.inr ⟨hmid.run_eq, hmid.cause_eq, rfl, q, rfl, hipc, hpc⟩))
  case ends => exact fun _ _ es h => (h.midstep es).shows_stop (.inr (.inr rfl))
  case delivers =>
    intro u q c es h _
    have ⟨_, _, hipc⟩ := h
    exact (h.midstep es).shows_delivery hipc c

theorem State.Awaits.shows_takeInput {s u : State} {p : PendingIn} (h : s.Awaits u p) :
    s.ShowsOutcome (u.takeInput p) := by
  obtain ⟨⟨hrun, hcause, hhold, hfpc, hfinfo⟩, hpc, hipc⟩ := h
  obtain ⟨c, cs, lines, -, ht⟩ | ⟨-, ht⟩ := State.takeInput_cases p u <;> rw [ht]
  · exact State.Midstep.shows_delivery (u := { u with cur := cs, script := lines })
      ⟨hrun, hcause, hhold, hfpc, hfinfo⟩ hipc c
  · exact State.Awaits.shows_serveLive (u := { u with cur := [], script := [] })
      ⟨⟨hrun, hcause, hhold, hfpc, hfinfo⟩, hpc, hipc⟩ u.live

/-- Every effect of phases D and E shows one of the outcomes; the pc of an `in` is past its two words. -/
theorem Effect.showsOutcome {s u t : State} {i : Instr} (h : Effect u i t) (hu : s.Midstep u)
    (hpc : u.pc = s.pc + BitVec.ofNat 16 (1 + i.operands.length)) : s.ShowsOutcome t := by
  cases h with
  | halt => exact hu.shows_stop (.inl rfl)
  | retEmpty _ => exact hu.shows_stop (.inr (.inl rfl))
  | input r ipc hipc =>
    have hpc2 : u.pc = s.pc + 2 := hpc
    have hbegan : ipc = s.pc := by
      rw [hpc2] at hipc
      exact (BitVec.add_left_inj 2 |>.mp hipc).symm
    exact State.Awaits.shows_takeInput ⟨hu, hpc2, hbegan⟩
  | _ => exact .inl ⟨hu.run_eq, hu.hold_eq, hu.cause_eq⟩

theorem State.midstep_issue {s : State} (hready : s.ready) (hcause : s.cause = .none) (n : Nat) :
    s.Midstep (s.issue n) := by
  obtain ⟨hrun, -, hhold, -⟩ := hready
  exact ⟨(State.issue_run s n).trans hrun, (State.issue_cause s n).trans hcause, (State.issue_hold s n).trans hhold,
    State.issue_fpc s n, State.issue_finfo s n⟩

theorem exec_showsOutcome {s t : State} {i : Instr} (hready : s.ready) (hcause : s.cause = .none)
    (h : exec i s = .next t) : s.ShowsOutcome t := by
  have hmid := State.midstep_issue hready hcause i.operands.length
  obtain heff | ⟨e, he, rfl⟩ := exec_effect h
  · exact heff.showsOutcome hmid (State.issue_pc s _)
  · exact hmid.shows_fault he rfl

/-- A ready core runs the instruction it fetches (R98). -/
theorem step_of_fetch_ok {s : State} {i : Instr} (hready : s.ready) (hf : s.fetch = .ok i) : step s = exec i s := by
  simp only [step_of_ready hready, fetchExecute, hf]

/-! ## Two runs that differ in the control state -/

section

variable {s s' : State} (h : s.visible = s'.visible)
include h

theorem SameEnd.push (c : Code) : SameEnd (s.push c) (s'.push c) := by
  have hfull : s.stackFull = s'.stackFull := by rw [← State.stackFull_visible, h, State.stackFull_visible]
  have hstack : s.stack = s'.stack := State.visible_congr State.stack h
  unfold State.push
  rw [← hfull, ← hstack]
  cases toValue c with
  | error e => rfl
  | ok x =>
    cases s.stackFull with
    | true => rfl
    | false => exact State.visible_congr (fun u => { u with stack := x :: s.stack }) h

theorem SameEnd.popInto (i : R3) : SameEnd (s.popInto i) (s'.popInto i) := by
  have hstack : s.stack = s'.stack := State.visible_congr State.stack h
  unfold State.popInto
  rw [← hstack]
  cases s.stack with
  | nil => rfl
  | cons v rest => exact State.visible_congr (fun u => State.setReg { u with stack := rest } i v) h

theorem SameEnd.loadInto (i : R3) (addr : V15) : SameEnd (s.loadInto i addr) (s'.loadInto i addr) := by
  have hread : s.memRead addr.toNat = s'.memRead addr.toNat := by
    rw [← State.memRead_visible, h, State.memRead_visible]
  unfold State.loadInto
  rw [← hread]
  cases s.memRead addr.toNat with
  | error e => rfl
  | ok w =>
    dsimp only
    cases toValue (w.setWidth 21) with
    | error e => rfl
    | ok v => exact State.visible_congr (fun u => u.setReg i v) h

theorem SameEnd.aluWrite (op : AluOp) (i : R3) (b c : V15) : SameEnd (s.aluWrite op i b c) (s'.aluWrite op i b c) := by
  unfold State.aluWrite
  cases op.div0 c with
  | true => rfl
  | false => exact State.visible_congr (fun u => u.setReg i (op.result b c)) h

theorem SameEnd.callTo (t : V15) : SameEnd (s.callTo t) (s'.callTo t) := by
  have hpc : s.pc = s'.pc := State.visible_congr State.pc h
  have hpush := SameEnd.push h (s.pc.setWidth 21)
  unfold State.callTo
  rw [← hpc]
  revert hpush
  cases s.push (s.pc.setWidth 21) <;> cases s'.push (s.pc.setWidth 21) <;> intro hpush
  · exact hpush
  · exact hpush.elim
  · exact hpush.elim
  · exact State.visible_congr (fun u => u.jump t) hpush

theorem SameEnd.returnOrStop : SameEnd (.ok s.returnOrStop) (.ok s'.returnOrStop) := by
  have hstack : s.stack = s'.stack := State.visible_congr State.stack h
  unfold State.returnOrStop
  rw [← hstack]
  cases s.stack with
  | nil => exact State.visible_congr (fun u => u.stop .retEmpty) h
  | cons t rest => exact State.visible_congr (fun u => State.jump { u with stack := rest } t) h

theorem SameEnd.jumpIf (p : Prop) [Decidable p] (t : V15) :
    SameEnd (.ok (if p then s.jump t else s)) (.ok (if p then s'.jump t else s')) := by
  by_cases hp : p
  · rw [if_pos hp, if_pos hp]
    exact State.visible_congr (fun u => u.jump t) h
  · rw [if_neg hp, if_neg hp]
    exact h

theorem State.visible_issue_congr (n : Nat) : (s.issue n).visible = (s'.issue n).visible := by
  rw [State.visible_issue, State.visible_issue, h]

/-- An instruction whose phases D and E end alike in the two states shows the same in both (R98). -/
theorem SameEnd.of_exec {i : Instr} {n : Nat} {body : State → State → Except Trap State} {t t' : State}
    (hi : ∀ u, exec i u = execute n (body u) u) (ht : exec i s = .next t) (ht' : exec i s' = .next t')
    (hb : SameEnd (body s (s.issue n)) (body s' (s'.issue n))) : t.visible = t'.visible :=
  execute_visible h hb ((hi s).symm.trans ht) ((hi s').symm.trans ht')

theorem executeAlu3_visible {op : AluOp} {a b c : Operand} {t t' : State} (ht : executeAlu3 op a b c s = .next t)
    (ht' : executeAlu3 op a b c s' = .next t') : t.visible = t'.visible := by
  have hi := State.visible_issue_congr h 3
  exact execute_visible h (SameEnd.withTarget fun i => SameEnd.withVal hi fun x => SameEnd.withVal hi fun y =>
    SameEnd.aluWrite hi op i x y) ht ht'

theorem executeJumpIf_visible {c : V15 → Prop} [DecidablePred c] {a b : Operand} {t t' : State}
    (ht : executeJumpIf c a b s = .next t) (ht' : executeJumpIf c a b s' = .next t') : t.visible = t'.visible := by
  have hi := State.visible_issue_congr h 2
  exact execute_visible h (SameEnd.withVal hi fun v => SameEnd.withVal hi fun u => SameEnd.jumpIf hi (c v) u) ht ht'

/-- Two states that show the same run every instruction to states that show the same. -/
theorem exec_visible {i : Instr} {t t' : State} (ht : exec i s = .next t) (ht' : exec i s' = .next t') :
    t.visible = t'.visible := by
  have h0 := State.visible_issue_congr h 0
  have h1 := State.visible_issue_congr h 1
  have h2 := State.visible_issue_congr h 2
  cases i with
  | halt => exact SameEnd.of_exec h exec_halt ht ht' (State.visible_congr (fun u => u.stop .haltInstr) h0)
  | set a b =>
    exact SameEnd.of_exec h (exec_set a b) ht ht' (SameEnd.withTarget fun i => SameEnd.withVal h2 fun v =>
      State.visible_congr (fun u => u.setReg i v) h2)
  | push a => exact SameEnd.of_exec h (exec_push a) ht ht' (SameEnd.withVal h1 fun v => SameEnd.push h1 (v.setWidth 21))
  | pop a => exact SameEnd.of_exec h (exec_pop a) ht ht' (SameEnd.withTarget fun i => SameEnd.popInto h1 i)
  | eq a b c => exact executeAlu3_visible h ht ht'
  | gt a b c => exact executeAlu3_visible h ht ht'
  | jmp a =>
    exact SameEnd.of_exec h (exec_jmp a) ht ht' (SameEnd.withVal h1 fun v =>
      State.visible_congr (fun u => u.jump v) h1)
  | jt a b => exact executeJumpIf_visible h (c := (· ≠ 0)) ht ht'
  | jf a b => exact executeJumpIf_visible h (c := (· = 0)) ht ht'
  | add a b c => exact executeAlu3_visible h ht ht'
  | mult a b c => exact executeAlu3_visible h ht ht'
  | mod a b c => exact executeAlu3_visible h ht ht'
  | and a b c => exact executeAlu3_visible h ht ht'
  | or a b c => exact executeAlu3_visible h ht ht'
  | not a b =>
    exact SameEnd.of_exec h (exec_not a b) ht ht' (SameEnd.withTarget fun i => SameEnd.withVal h2 fun x =>
      SameEnd.aluWrite h2 .not i x 0)
  | rmem a b =>
    exact SameEnd.of_exec h (exec_rmem a b) ht ht' (SameEnd.withTarget fun i => SameEnd.withVal h2 fun addr =>
      SameEnd.loadInto h2 i addr)
  | wmem a b =>
    exact SameEnd.of_exec h (exec_wmem a b) ht ht' (SameEnd.withVal h2 fun addr => SameEnd.withVal h2 fun v =>
      State.visible_congr (fun u => u.memWrite addr (v.setWidth 16)) h2)
  | call a => exact SameEnd.of_exec h (exec_call a) ht ht' (SameEnd.withVal h1 fun u => SameEnd.callTo h1 u)
  | ret => exact SameEnd.of_exec h exec_ret ht ht' (SameEnd.returnOrStop h0)
  | out a =>
    exact SameEnd.of_exec h (exec_out a) ht ht' (SameEnd.withVal h1 fun c =>
      State.visible_congr (fun u => u.emit c) h1)
  | input a =>
    have hpc : s.pc = s'.pc := State.visible_congr State.pc h
    refine SameEnd.of_exec h (exec_input a) ht ht' (SameEnd.withTarget fun i => ?_)
    rw [hpc]
    exact State.visible_takeInput _ h1
  | noop => exact SameEnd.of_exec h exec_noop ht ht' h0

end

end Sys2Proof.Machine

namespace Sys2Proof

open Sys2Proof.Machine

/-- Settles O40: a ready core fetches, and takes the fault of the fetch or runs the instruction, which always answers
(R8). -/
theorem fourOutcomesOfAStep : Obligations.FourOutcomesOfAStep := by
  intro s hready hcause
  cases hf : s.fetch with
  | error e =>
    have ⟨hrun, _, hhold, _⟩ := hready
    have hmid : s.Midstep s := ⟨hrun, hcause, hhold, rfl, rfl⟩
    exact ⟨_, step_of_fetch_error hready hf, hmid.shows_fault (State.fetch_not_loadError hf) rfl⟩
  | ok i =>
    obtain ⟨t, ht⟩ := exec_next i s
    exact ⟨t, (step_of_fetch_ok hready hf).trans ht, exec_showsOutcome hready hcause ht⟩

/-- Settles O41: in a HALTED core only the host's moves are served, and all but a reset write nothing there but the script
and the live source (R30, R244). -/
theorem haltedIsTerminal : Obligations.HaltedIsTerminal := by
  intro s hrun
  refine ⟨step_of_halted hrun, fun t ht hrst => ?_⟩
  have hnot : s.run ≠ .running := by simp [hrun]
  obtain ⟨m, ms, hreq, hm⟩ | ⟨p, e, es, -, hrunning, -⟩ | ⟨e, hready, -⟩ | ⟨i, hready, -⟩ := step_cases ht
  · obtain ⟨rfl, -⟩ | ⟨image, ending, -, -, hrunning, -⟩ | ⟨lines, -, -, rfl⟩ | ⟨-, hrunning, -⟩ | ⟨-, -, rfl⟩ |
      ⟨e, -, rfl⟩ | ⟨-, hrunning, -⟩ | ⟨-, -, rfl⟩ := serveHost_cases hm
    · exact absurd hreq (hrst ms)
    · exact absurd hrunning hnot
    · exact ⟨hrun, rfl, rfl, rfl, rfl, rfl, rfl, rfl, rfl, rfl, rfl, rfl⟩
    · exact absurd hrunning hnot
    · exact ⟨hrun, rfl, rfl, rfl, rfl, rfl, rfl, rfl, rfl, rfl, rfl, rfl⟩
    · exact ⟨hrun, rfl, rfl, rfl, rfl, rfl, rfl, rfl, rfl, rfl, rfl, rfl⟩
    · exact absurd hrunning hnot
    · exact ⟨hrun, rfl, rfl, rfl, rfl, rfl, rfl, rfl, rfl, rfl, rfl, rfl⟩
  · exact absurd hrunning hnot
  · exact absurd hready.1 hnot
  · exact absurd hready.1 hnot

/-- Settles O54: the two states show the same, and what is asked of the results is what they show (R33, R41). -/
theorem controlStateIsInvisible : Obligations.ControlStateIsInvisible := by
  intro i s t t' b f g ht ht'
  have hsame : t'.visible = t.visible :=
    exec_visible (s := { s with trace := b, fpc := f, finfo := g }) (s' := s) rfl ht' ht
  exact ⟨State.visible_congr State.regs hsame, State.visible_congr State.pc hsame,
    State.visible_congr State.stack hsame, State.visible_congr State.mem hsame, State.visible_congr State.run hsame,
    State.visible_congr State.cause hsame, State.visible_congr State.cur hsame, State.visible_congr State.script hsame,
    State.visible_congr State.out hsame, State.visible_congr State.hold hsame, State.visible_congr State.live hsame⟩

end Sys2Proof

/-! PROOFS. The instruction `in`: the script, the live source, the hold, and the control console (R201 to R214, R250 to
R256). -/

namespace Sys2Proof.Machine

open Sys2Proof.Claims

/-! ## The end of an `in` -/

theorem State.deliver_of_le {c : Code} (hc : c.toNat ≤ 32767) (p : PendingIn) (s : State) :
    s.deliver p c = (s.emit (c.setWidth 15)).setReg p.target (c.setWidth 15) := by
  simp only [State.deliver, toValue_ok.mpr ⟨hc, rfl⟩]

theorem State.deliver_of_gt {c : Code} (hc : 32767 < c.toNat) (p : PendingIn) (s : State) :
    s.deliver p c = s.raise (.invalidNumber c) p.ipc := by
  simp only [State.deliver, toValue_error.mpr ⟨hc, rfl⟩]

theorem isSentinel_eq_false {s : State} {c : Code} (h : NotSentinel s c) : s.isSentinel c = false := by
  rw [← Bool.not_eq_true, State.isSentinel_iff]
  exact fun ⟨b, hb, hc⟩ => h b hb hc

/-- A live character other than the sentinel ends an `in` whose console is closed (R210). -/
theorem State.serveLive_char {s : State} {p : PendingIn} {c : Code} (hl : p.line = none) (hc : NotSentinel s c)
    (es : List LiveEvent) : s.serveLive p (.char c :: es) = State.deliver p c { s with live := es, hold := none } := by
  simp [State.serveLive, hl, isSentinel_eq_false hc]

/-- What stood in `live` does not matter to an `in` that is given its events. -/
theorem State.serveLive_live (es : List LiveEvent) (s : State) (p : PendingIn) (l : List LiveEvent) :
    State.serveLive { s with live := l } p es = s.serveLive p es :=
  State.serveLive_hold_live es s p s.hold l

/-! ## The script -/

theorem nextScripted_of_next {s : State} {c : Code} {cs : List Code} {lines : List (List Code)}
    (h : NextScripted s c cs lines) : nextScripted s.cur s.script = some (c, cs, lines) := by
  obtain ⟨hcur, hscript⟩ | ⟨hcur, k, hscript⟩ := h
  · rw [hcur, hscript, nextScripted]
  · rw [hcur, hscript, nextScripted_skip]

theorem nextScripted_of_spent {s : State} (h : ScriptSpent s) : nextScripted s.cur s.script = none := by
  rw [h.1]
  exact nextScripted_spent h.2

/-- The script is spent exactly when the queue is empty (R208). -/
theorem scriptSpent_iff {s : State} : ScriptSpent s ↔ s.cur ++ s.script.flatten = [] := by
  rw [ScriptSpent, List.append_eq_nil_iff, List.flatten_eq_nil_iff]

theorem State.takeInput_of_scripted {s : State} {c : Code} {cs : List Code} {lines : List (List Code)}
    (h : nextScripted s.cur s.script = some (c, cs, lines)) (p : PendingIn) :
    s.takeInput p = State.deliver p c { s with cur := cs, script := lines } := by
  simp only [State.takeInput, h]

theorem State.takeInput_of_spent {s : State} (h : nextScripted s.cur s.script = none) (p : PendingIn) :
    s.takeInput p = State.serveLive { s with cur := [], script := [] } p s.live := by
  simp only [State.takeInput, h]

/-! ## The beginning of an `in` -/

/-- With a register target, an `in` asks the script and then the live source (R201). -/
theorem exec_input_reg (i : R3) (s : State) :
    exec (.input (.reg i)) s = .next ((s.issue 1).takeInput ⟨s.pc, i, none⟩) := rfl

/-- Phase T neither reads nor writes what an `in` takes its input from. -/
theorem State.traceStep_setInput (s : State) (cs : List Code) (lines : List (List Code)) (es : List LiveEvent)
    (h : Option PendingIn) :
    State.traceStep { s with cur := cs, script := lines, live := es, hold := h } =
      { s.traceStep with cur := cs, script := lines, live := es, hold := h } := by
  cases ht : s.trace <;> simp [State.traceStep, ht]

/-- A scripted character, in the state that phases F3 and T leave (R206). -/
theorem exec_input_scripted {s : State} {c : Code} {cs : List Code} {lines : List (List Code)}
    (h : nextScripted s.cur s.script = some (c, cs, lines)) (i : R3) :
    exec (.input (.reg i)) s =
      .next (State.deliver ⟨s.pc, i, none⟩ c { s.traceStep with pc := s.pc + 2, cur := cs, script := lines }) := by
  have hnext : nextScripted (s.issue 1).cur (s.issue 1).script = some (c, cs, lines) := by
    rw [State.issue_cur, State.issue_script, h]
  rw [exec_input_reg, State.takeInput_of_scripted hnext, State.issue_eq]
  rfl

/-- The script being spent, the live source is asked by the begun `in` (R206, R210). -/
theorem exec_input_spent {s : State} (h : ScriptSpent s) (i : R3) :
    exec (.input (.reg i)) s = .next ((begun s i).serveLive ⟨s.pc, i, none⟩ s.live) := by
  have hnext : nextScripted (s.issue 1).cur (s.issue 1).script = none := by
    rw [State.issue_cur, State.issue_script, nextScripted_of_spent h]
  have hbegun : begun s i =
      { s.issue 1 with cur := [], script := [], hold := some ⟨s.pc, i, none⟩, live := (s.issue 1).live } := by
    rw [State.issue_eq]
    rfl
  have hlive := State.serveLive_hold_live (s.issue 1).live { s.issue 1 with cur := [], script := [] } ⟨s.pc, i, none⟩
    (some ⟨s.pc, i, none⟩) (s.issue 1).live
  rw [exec_input_reg, State.takeInput_of_spent hnext]
  exact congrArg _ (hlive.symm.trans (by rw [hbegun, State.issue_live]))

/-- The begun `in` with other events in the live source. -/
theorem exec_input_spent_live {s : State} (h : ScriptSpent s) (i : R3) (es : List LiveEvent) :
    exec (.input (.reg i)) { s with live := es } = .next ((begun s i).serveLive ⟨s.pc, i, none⟩ es) := by
  have hbegun : begun { s with live := es } i = { begun s i with live := es } := by
    simp only [begun, State.traceStep_setInput s s.cur s.script es s.hold]
  rw [exec_input_spent (s := { s with live := es }) h i, hbegun, State.serveLive_live]

/-- The scripted character with other events in the live source: they are left as they are. -/
theorem exec_input_scripted_live {s : State} {c : Code} {cs : List Code} {lines : List (List Code)}
    (h : nextScripted s.cur s.script = some (c, cs, lines)) (i : R3) (es : List LiveEvent) :
    exec (.input (.reg i)) { s with live := es } =
      .next { State.deliver ⟨s.pc, i, none⟩ c { s.traceStep with pc := s.pc + 2, cur := cs, script := lines } with
        live := es } := by
  rw [exec_input_scripted (s := { s with live := es }) h i, State.traceStep_setInput s s.cur s.script es s.hold,
    ← State.deliver_live_comm]
  simp only [State.traceStep_hold]

/-! ## The results of an `in` (R201) -/

section

variable {s : State} {c : Code}

theorem exec_input_scripted_next {cs : List Code} {lines : List (List Code)}
    (h : nextScripted s.cur s.script = some (c, cs, lines)) (hc : c.toNat ≤ 32767) (i : R3) :
    exec (.input (.reg i)) s =
      .next { s.traceStep with
        pc := s.pc + 2, cur := cs, script := lines, out := s.out ++ [c.setWidth 15],
        regs := s.regs.set i (c.setWidth 15) } := by
  rw [exec_input_scripted h i, State.deliver_of_le hc, State.setReg, State.emit]
  simp only [State.traceStep_out, State.traceStep_regs]

theorem exec_input_scripted_invalid {cs : List Code} {lines : List (List Code)}
    (h : nextScripted s.cur s.script = some (c, cs, lines)) (hc : 32767 < c.toNat) (i : R3) :
    exec (.input (.reg i)) s = .next (faulted 1 .invalidNumber c { s with cur := cs, script := lines }) := by
  rw [exec_input_scripted h i, State.deliver_of_gt hc, faulted, State.traceStep_setInput s cs lines s.live s.hold]
  simp only [State.raise, State.traceStep_live, State.traceStep_hold]
  rfl

variable {es : List LiveEvent} (hspent : ScriptSpent s)
include hspent

theorem exec_input_char (hlive : s.live = .char c :: es) (hsent : NotSentinel s c) (i : R3) :
    exec (.input (.reg i)) s =
      .next (State.deliver ⟨s.pc, i, none⟩ c { begun s i with live := es, hold := none }) := by
  have hsent' : NotSentinel (begun s i) c := by rwa [NotSentinel, begun, State.traceStep_params]
  rw [exec_input_spent hspent, hlive, State.serveLive_char rfl hsent']

theorem exec_input_char_next (hlive : s.live = .char c :: es) (hsent : NotSentinel s c) (hc : c.toNat ≤ 32767)
    (i : R3) :
    exec (.input (.reg i)) s =
      .next { s.traceStep with
        pc := s.pc + 2, cur := [], script := [], live := es, hold := none, out := s.out ++ [c.setWidth 15],
        regs := s.regs.set i (c.setWidth 15) } := by
  rw [exec_input_char hspent hlive hsent, State.deliver_of_le hc, State.setReg, State.emit]
  simp only [begun, State.traceStep_out, State.traceStep_regs]

theorem exec_input_char_invalid (hlive : s.live = .char c :: es) (hsent : NotSentinel s c) (hc : 32767 < c.toNat)
    (i : R3) :
    exec (.input (.reg i)) s =
      .next (faulted 1 .invalidNumber c { s with cur := [], script := [], live := es, hold := none }) := by
  rw [exec_input_char hspent hlive hsent, State.deliver_of_gt hc, faulted, State.traceStep_setInput]
  rfl

theorem exec_input_eof (hlive : s.live = .eof :: es) (i : R3) :
    exec (.input (.reg i)) s =
      .next { s.traceStep with
        pc := s.pc + 2, cur := [], script := [], live := es, hold := none, run := .halted, cause := .inputEof } := by
  rw [exec_input_spent hspent, hlive]
  rfl

theorem exec_input_holds (hlive : s.live = []) (i : R3) :
    exec (.input (.reg i)) s =
      .next { s.traceStep with
        pc := s.pc + 2, cur := [], script := [], hold := some { ipc := s.pc, target := i, line := none } } := by
  have hempty : [] = s.traceStep.live := by rw [State.traceStep_live, hlive]
  rw [exec_input_spent hspent, hlive, State.serveLive, hempty]
  rfl

end

/-! ## A later step of a held `in` -/

theorem step_of_held_live {s : State} {p : PendingIn} (h : held s p) (hlive : s.live ≠ []) :
    step s = .next (s.serveLive p s.live) := by
  obtain ⟨hrun, hlaunch, hhold, hreq⟩ := h
  exact step_of_held hrun hlaunch hhold hreq hlive

/-- A held `in` that is offered `es`, whatever stood in `live`. -/
theorem step_of_held_offered {s : State} {p : PendingIn} (h : held s p) {es : List LiveEvent} (hes : es ≠ []) :
    step { s with live := es } = .next (s.serveLive p es) := by
  have hheld : held { s with live := es } p := h
  rw [step_of_held_live hheld hes, State.serveLive_live]

theorem step_of_held_empty {s : State} {p : PendingIn} (h : held s p) (hlive : s.live = []) :
    step s = .fault .holding := by
  obtain ⟨hrun, hlaunch, hhold, hreq⟩ := h
  simp only [step, hreq, coreStep, hrun, hlaunch, hhold, resumeInput, hlive]

/-- A move of the host is served before the core steps (R258). -/
theorem step_of_request {s : State} {m : HostMove} {ms : List HostMove} (h : s.requests = m :: ms) :
    step s = serveHost m { s with requests := ms } := by
  simp only [step, h]

/-! ## The events in two parts -/

/-- The live source's answer to an `in`, with the events in two parts (R209, R212): the first part ends the `in`, or the rest
is what the held state takes in a step of its own. -/
theorem State.serveLive_split {s : State} (hrun : s.run = .running) (hlaunch : s.launch = .started)
    (hreq : s.requests = []) (p : PendingIn) (es : List LiveEvent) {fs : List LiveEvent} (hfs : fs ≠ []) :
    ((s.serveLive p es).hold = none →
      s.serveLive p (es ++ fs) = { s.serveLive p es with live := (s.serveLive p es).live ++ fs }) ∧
    ((s.serveLive p es).hold ≠ none →
      (s.serveLive p es).live = [] ∧
        .next (s.serveLive p (es ++ fs)) = step { s.serveLive p es with live := fs }) := by
  obtain ⟨hhold, hends⟩ | ⟨q, hhold, hlive, hgoes⟩ := State.serveLive_append es fs s p
  · exact ⟨fun _ => hends, fun hne => absurd hhold hne⟩
  · refine ⟨fun hnone => absurd (hnone.symm.trans hhold) (by simp), fun _ => ⟨hlive, ?_⟩⟩
    obtain ⟨hrun', hlaunch', hreq'⟩ := State.serveLive_holding hrun hhold
    have hheld : held (s.serveLive p es) q := ⟨hrun', hlaunch'.trans hlaunch, hhold, hreq'.trans hreq⟩
    rw [step_of_held_offered hheld hfs, hgoes]

/-! ## The console -/

theorem begun_params (s : State) (i : R3) : (begun s i).params = s.params := State.traceStep_params s

theorem commandText_begun {s : State} {p : PendingIn} {line : List Code} {es : List LiveEvent}
    (h : CommandText s p line es) (i : R3) : CommandText (begun s i) p line es := by
  rw [CommandText, begun_params]
  exact h

section

variable {s : State} {p : PendingIn} {line : List Code} {es : List LiveEvent} (h : CommandText s p line es)
include h

/-- The sentinel and the characters of a command line leave the line to the held `in` (R210, R250). -/
theorem State.serveLive_commandText (tail : List LiveEvent) :
    s.serveLive p (es ++ tail) = s.serveLive { p with line := some line } tail := by
  obtain ⟨hl, b, hb, hline, rfl⟩ | ⟨l, more, hl, rfl, hmore, rfl⟩ := h
  · rw [List.cons_append, State.serveLive_sentinel _ hl (State.isSentinel_iff.mpr ⟨b, hb, rfl⟩)]
    exact State.serveLive_chars s { p with line := some [] } line tail rfl hline
  · exact State.serveLive_chars s p more tail hl hmore

/-- A whole command line is applied, and the `in` goes on (R250). -/
theorem State.serveLive_commandLine (rest : List LiveEvent) :
    s.serveLive p (es ++ .char 10 :: rest) = (s.command line).serveLive { p with line := none } rest :=
  (State.serveLive_commandText h _).trans (State.serveLive_lineBreak s rest rfl)

theorem State.serveLive_unfinishedLine :
    s.serveLive p es = { s with live := [], hold := some { p with line := some line } } := by
  have htext := State.serveLive_commandText h []
  rwa [List.append_nil] at htext

theorem State.serveLive_lineEof (rest : List LiveEvent) :
    s.serveLive p (es ++ .eof :: rest) = State.stop .inputEof { s with live := rest, hold := none } :=
  State.serveLive_commandText h _

end

/-- A command line leaves the `in` held, whatever line the `in` waits for next (R250). -/
theorem held_command {s : State} {p : PendingIn} (h : held s p) (l : List Code) (q : PendingIn) :
    held { s.command l with hold := some q } q := by
  obtain ⟨hrun, hlaunch, -, hreq⟩ := h
  exact ⟨(State.command_run l s).trans hrun, (State.command_launch l s).trans hlaunch, rfl,
    (State.command_requests l s).trans hreq⟩

/-- The begun `in` holds with its console closed (R212). -/
theorem held_begun {s : State} (hready : s.ready) (i : R3) : held (begun s i) ⟨s.pc, i, none⟩ := by
  obtain ⟨hrun, hlaunch, -, hreq⟩ := hready
  exact ⟨(State.traceStep_run s).trans hrun, (State.traceStep_launch s).trans hlaunch, rfl,
    (State.traceStep_requests s).trans hreq⟩

/-- After a command line a held `in` takes the rest of the events as a step of its own would (R212, R250). -/
theorem step_of_held_commandLine {s : State} {p : PendingIn} (h : held s p) (line : List Code) (q : PendingIn)
    {rest : List LiveEvent} (hrest : rest ≠ []) :
    step { s.command line with live := rest, hold := some q } = .next ((s.command line).serveLive q rest) := by
  rw [step_of_held_offered (held_command h line q) hrest]
  exact congrArg _ (State.serveLive_hold_live rest (s.command line) q (some q) (s.command line).live)

/-- The begun `in` is held already, and a command line leaves it so. -/
theorem begun_command_setHold (s : State) (i : R3) (l : List Code) (es : List LiveEvent) :
    ({ (begun s i).command l with live := es, hold := some ⟨s.pc, i, none⟩ } : State) =
      { (begun s i).command l with live := es } := by
  have hhold : some ⟨s.pc, i, none⟩ = ((begun s i).command l).hold := (State.command_hold l (begun s i)).symm
  rw [hhold]

end Sys2Proof.Machine

namespace Sys2Proof

open Sys2Proof.Machine Sys2Proof.Claims

/-! ## The statements about the input -/

/-- Settles O29: the script or, once it is spent, the first live event decides the result (R201, R206, R210). -/
theorem inputReadsOneCharacter : Obligations.InputReadsOneCharacter := by
  refine ⟨fun _ => rfl, fun s => ⟨fun i c cs lines hnext hc => ?_, fun i c cs lines hnext hc => ?_,
    fun i c es hspent hlive hsent hc => ?_, fun i c es hspent hlive hsent hc => ?_, fun i es hspent hlive => ?_,
    fun i hspent hlive => ?_, ?_⟩⟩
  · exact exec_input_scripted_next (nextScripted_of_next hnext) hc i
  · exact exec_input_scripted_invalid (nextScripted_of_next hnext) hc i
  · exact exec_input_char_next hspent hlive hsent hc i
  · exact exec_input_char_invalid hspent hlive hsent hc i
  · exact exec_input_eof hspent hlive i
  · exact exec_input_holds hspent hlive i
  · exact targetFaults_of_exec fun a => exec_input a s

/-- Settles O30: the end of input stops the `in`, in the step that begins it and in a later one (R213). -/
theorem endOfLiveInputStops : Obligations.EndOfLiveInputStops := by
  refine ⟨fun s i es hspent hlive => ?_, fun s p es hheld hlive => ?_⟩
  · exact ⟨_, exec_input_eof hspent hlive i, rfl, rfl, rfl, rfl, State.traceStep_regs s, State.traceStep_out s, rfl⟩
  · rw [step_of_held_live hheld (by simp [hlive]), hlive]
    rfl

/-- Settles O31: nothing offered, an offer, and a character taken in a later step (R212, R256). -/
theorem inputHoldsUntilOffered : Obligations.InputHoldsUntilOffered := by
  refine ⟨fun s p hheld hlive => step_of_held_empty hheld hlive, fun s e ms hreq => step_of_request hreq,
    fun s p c es hheld hline hlive hsent hc => ?_⟩
  rw [step_of_held_live hheld (by simp [hlive]), hlive, State.serveLive_char hline hsent, State.deliver_of_le hc]
  rfl

/-- Settles O32: a scripted character does not look at the live source, and the live source may be given in two parts
(R209, R212). -/
theorem waitingMakesNoDifference : Obligations.WaitingMakesNoDifference := by
  refine ⟨fun s i es fs hready hfs => ?_, fun s p es fs hheld hes hfs => ?_⟩
  · obtain ⟨hnext, hqueue⟩ | ⟨c, cs, lines, hnext, -⟩ := nextScripted_queue s.cur s.script
    · have hspent : ScriptSpent s := scriptSpent_iff.mpr hqueue
      obtain ⟨hrun, hlaunch, -, hreq⟩ := held_begun hready i
      obtain ⟨hends, hholds⟩ := State.serveLive_split hrun hlaunch hreq ⟨s.pc, i, none⟩ es hfs
      refine ⟨_, exec_input_spent_live hspent i es, fun hnone => ?_, fun hne => ?_⟩
      · rw [exec_input_spent_live hspent, hends hnone]
      · rw [exec_input_spent_live hspent]
        exact hholds hne
    · have hhold : (State.deliver ⟨s.pc, i, none⟩ c
          { s.traceStep with pc := s.pc + 2, cur := cs, script := lines }).hold = none := by
        obtain ⟨-, -, hnone, -⟩ := hready
        rw [State.deliver_hold, State.traceStep_hold, hnone]
      exact ⟨_, exec_input_scripted_live hnext i es, fun _ => exec_input_scripted_live hnext i (es ++ fs),
        fun hne => absurd hhold hne⟩
  · have ⟨hrun, hlaunch, _, hreq⟩ := hheld
    obtain ⟨hends, hholds⟩ := State.serveLive_split hrun hlaunch hreq p es hfs
    have hesfs : es ++ fs ≠ [] := by simp [hes]
    refine ⟨_, step_of_held_offered hheld hes, fun hnone => ?_, fun hne => ?_⟩
    · rw [step_of_held_offered hheld hesfs, hends hnone]
    · rw [step_of_held_offered hheld hesfs]
      exact hholds hne

/-- Settles O33: the next scripted character is the first of the queue, and an empty queue is a spent script (R208). -/
theorem scriptIsOneQueue : Obligations.ScriptIsOneQueue := by
  refine fun s => ⟨fun i c q hq hc => ?_, fun i hempty => ?_⟩
  · obtain ⟨-, hqueue⟩ | ⟨d, cs, lines, hnext, hqueue⟩ := nextScripted_queue s.cur s.script
    · cases hqueue.symm.trans hq
    · cases hqueue.symm.trans hq
      exact ⟨cs, lines, rfl, exec_input_scripted_next hnext hc i⟩
  · have hbegun : begun { s with cur := [], script := [] } i = begun s i := by
      simp only [begun, State.traceStep_setInput s [] [] s.live s.hold, State.traceStep_live]
    rw [exec_input_spent (scriptSpent_iff.mpr hempty),
      exec_input_spent (s := { s with cur := [], script := [] }) (scriptSpent_iff.mpr rfl), hbegun]

/-- Settles O35: the line is compared with the four words in turn (R250 to R254). -/
theorem consoleCommandEffects : Obligations.ConsoleCommandEffects := by
  refine fun s => ⟨rfl, rfl, rfl, fun p hp => ?_, fun line hdump hdebug hnodebug hhack => ?_⟩
  · have hpatch : s.patch = p := by rw [State.patch, hp, Option.getD_some]
    have hhack : s.command [104, 97, 99, 107] = s.hack := rfl
    rw [hhack, State.hack, hpatch]
    rfl
  · exact (if_neg hdump).trans ((if_neg hdebug).trans ((if_neg hnodebug).trans (if_neg hhack)))

/-- Settles O36: the line goes to the held `in`, and the event after it decides (R250). -/
theorem consoleRunsOneLine : Obligations.ConsoleRunsOneLine := by
  refine fun s p line es hheld htext => ⟨fun rest hrest hlive => ?_, fun hlive => ?_, fun hes hlive => ?_,
    fun rest hlive => ?_⟩
  · rw [step_of_held_live hheld (by simp [hlive]), hlive, State.serveLive_commandLine htext,
      step_of_held_commandLine hheld line _ hrest]
  · rw [step_of_held_live hheld (by simp [hlive]), hlive, State.serveLive_commandLine htext]
    rfl
  · rw [step_of_held_live hheld (hlive ▸ hes), hlive, State.serveLive_unfinishedLine htext]
  · rw [step_of_held_live hheld (by simp [hlive]), hlive, State.serveLive_lineEof htext]
    rfl

/-- Settles O60: the begun `in` is a held one, so the line goes as in a later step (R206, R250). -/
theorem inputRunsTheConsole : Obligations.InputRunsTheConsole := by
  refine fun s i line es hready hspent htext => ?_
  have hbegun := commandText_begun htext i
  refine ⟨fun rest hrest hlive => ?_, fun hlive => ?_, fun hlive => ?_, fun rest hlive => ?_⟩
  · rw [exec_input_spent hspent, hlive, State.serveLive_commandLine hbegun, ← begun_command_setHold,
      step_of_held_commandLine (held_begun hready i) line _ hrest]
  · rw [exec_input_spent hspent, hlive, State.serveLive_commandLine hbegun, ← begun_command_setHold]
    rfl
  · rw [exec_input_spent hspent, hlive, State.serveLive_unfinishedLine hbegun]
  · rw [exec_input_spent hspent, hlive, State.serveLive_lineEof hbegun]
    rfl

end Sys2Proof

/-! PROOFS. The trace record (R33), the fetch (R98, R239, R245), and pairs of instructions that undo or follow one another
(R74, R168, R190, R191). -/

namespace Sys2Proof.Machine

open Sys2Proof.Claims

/-! ## Reading the words of an instruction -/

/-- Words that stand in the cells from `addr` up are read as they stand. -/
theorem State.readWords_of_memRead {s : State} {addr : Nat} {ws : List W16}
    (h : ∀ k w, ws[k]? = some w → s.memRead (addr + k) = .ok w) : s.readWords addr ws.length = .ok ws := by
  induction ws generalizing addr with
  | nil => rfl
  | cons w ws ih =>
    have hfirst : s.memRead addr = .ok w := h 0 w rfl
    have hrest : s.readWords (addr + 1) ws.length = .ok ws :=
      ih fun k v hv => (congrArg s.memRead (by omega)).trans (h (k + 1) v hv)
    simp only [List.length_cons, State.readWords, hfirst, hrest]

/-- The first unreadable word faults, the readable ones before it notwithstanding (R245). -/
theorem State.readWords_of_unreadable {s : State} {addr n k : Nat} {e : Trap} (hk : k < n)
    (hreadable : ∀ j, j < k → ∃ w, s.memRead (addr + j) = .ok w) (he : s.memRead (addr + k) = .error e) :
    s.readWords addr n = .error e := by
  induction k generalizing addr n with
  | zero =>
    obtain ⟨m, rfl⟩ : ∃ m, n = m + 1 := ⟨n - 1, by omega⟩
    simp only [State.readWords, show s.memRead addr = .error e from he]
  | succ k ih =>
    obtain ⟨m, rfl⟩ : ∃ m, n = m + 1 := ⟨n - 1, by omega⟩
    obtain ⟨w, hw⟩ := hreadable 0 (by omega)
    have hrest : s.readWords (addr + 1) m = .error e := by
      refine ih (by omega) (fun j hj => ?_) ?_
      · rw [show addr + 1 + j = addr + (j + 1) by omega]
        exact hreadable (j + 1) (by omega)
      · rwa [show addr + 1 + k = addr + (k + 1) by omega]
    simp only [State.readWords, show s.memRead addr = .ok w from hw, hrest]

section

variable {s : State} {op : W16} {r : OpcodeRow}

/-- The fetch reads the opcode word, then as many words as its row says, and decodes them (R98). -/
theorem State.fetch_of_words {ws rest : List W16} {i : Instr} (hop : s.memRead s.pc.toNat = .ok op)
    (hrow : opcodeRow op = some r) (hws : s.readWords (s.pc.toNat + 1) r.format.arity = .ok ws)
    (hdec : r.format.decode ws = .ok (i, rest)) : s.fetch = .ok i := by
  simp only [State.fetch, hop, hrow, hws, decode_of_row hrow, hdec]

theorem State.fetch_of_unreadable_opcode {e : Trap} (hop : s.memRead s.pc.toNat = .error e) : s.fetch = .error e := by
  simp only [State.fetch, hop]

theorem State.fetch_of_unreadable_operand {e : Trap} (hop : s.memRead s.pc.toNat = .ok op)
    (hrow : opcodeRow op = some r) (hws : s.readWords (s.pc.toNat + 1) r.format.arity = .error e) :
    s.fetch = .error e := by
  simp only [State.fetch, hop, hrow, hws]

end

/-- An encodable instruction whose words stand at the pc is the one that is fetched (R98). -/
theorem State.fetch_of_encode {s : State} {i : Instr} (henc : i.encodable = true)
    (hbound : s.pc.toNat + (encode i).length ≤ 32768)
    (hwords : ∀ k w, (encode i)[k]? = some w → s.mem.read (s.pc.toNat + k) = some w) : s.fetch = .ok i := by
  have hread : ∀ k w, (encode i)[k]? = some w → s.memRead (s.pc.toNat + k) = .ok w := by
    intro k w hw
    have hk : k < (encode i).length := (List.getElem?_eq_some_iff.mp hw).1
    exact State.memRead_ok.mpr ⟨by omega, hwords k w hw⟩
  have hdecode : decode (encode i) = .ok (i, []) := by
    have hrest := decodeOfEncode i [] henc
    rwa [List.append_nil] at hrest
  obtain ⟨op, tail, r, hcons, hrow, hdec⟩ := decode_ok hdecode
  rw [hcons] at hread
  have htail : s.readWords (s.pc.toNat + 1) tail.length = .ok tail :=
    State.readWords_of_memRead fun k w hw => (congrArg s.memRead (by omega)).trans (hread (k + 1) w hw)
  have hcount : tail.length = r.format.arity := Format.decode_length hdec
  rw [hcount] at htail
  exact State.fetch_of_words (hread 0 op rfl) hrow htail hdec

/-- Taking the fault of an unreadable fetch, in the words of the claims (R236, R239). -/
theorem step_of_unreadable {s : State} {a : Nat} (hready : s.ready) (h : s.fetch = .error (.unmappedAccess a)) :
    step s = .next (fetchFaulted .unmappedAccess (BitVec.ofNat 21 a) s) :=
  step_of_fetch_error hready h

/-! ## call, ret -/

/-- A word that passes the range test comes back from the `V15` it became (R38). -/
theorem setWidth_of_toValue_cellWord {w : W16} {v : V15} (h : toValue (w.setWidth 21) = .ok v) : v.setWidth 16 = w := by
  have hle : w.toNat ≤ 32767 := (toNat_cellWord w).symm.trans_le (toValue_ok.mp h).1
  cases (toValue_cellWord_of_le hle).symm.trans h
  exact setWidth_value_of_le hle

/-- A `call` that goes on has pushed the address after it (R190). -/
theorem exec_call_running {s t : State} {a : Operand} (h : exec (.call a) s = .next t) (hrun : t.run = .running) :
    ∃ v x : V15, v.setWidth 16 = s.pc + 2 ∧ t = { s.issue 1 with stack := v :: s.stack }.jump x := by
  rw [exec_call] at h
  obtain hok | ⟨e, -, rfl⟩ := execute_next h
  · obtain ⟨x, -, hcall⟩ := State.withVal_ok.mp hok
    obtain ⟨v, hv, -, rfl⟩ := State.callTo_ok.mp hcall
    refine ⟨v, x, (setWidth_of_toValue_cellWord hv).trans (State.issue_pc s 1), ?_⟩
    rw [State.issue_stack]
  · cases hrun

end Sys2Proof.Machine

namespace Sys2Proof

open Sys2Proof.Machine

/-- Settles O8: phase T looks at the trace flag alone (R33). -/
theorem traceRecordPerStep : Obligations.TraceRecordPerStep :=
  fun _ => ⟨State.traceStep_off, fun h => ⟨_, State.traceStep_on h⟩⟩

/-- Settles O37: the words at the pc are fetched, and decoding gives the instruction back (R98). -/
theorem stepRunsInstructionAtPc : Obligations.StepRunsInstructionAtPc := by
  intro s i hready henc hbound hwords
  exact step_of_fetch_ok hready (State.fetch_of_encode henc hbound hwords)

/-- Settles O38: the opcode word is read first, then the operand words in ascending order (R239, R245). -/
theorem unreadableFetchFaults : Obligations.UnreadableFetchFaults := by
  refine fun s hready => ⟨fun hunread => ?_, fun op n k hpc hop harity hk hkn hreadable hunread => ?_⟩
  · have hfetch : s.fetch = .error (.unmappedAccess s.pc.toNat) :=
      State.fetch_of_unreadable_opcode (State.memRead_error.mpr ⟨rfl, hunread⟩)
    rw [step_of_unreadable hready hfetch, BitVec.ofNat_toNat]
  · obtain ⟨r, hrow, rfl⟩ := Option.map_eq_some_iff.mp harity
    have haddr : s.pc.toNat + 1 + (k - 1) = s.pc.toNat + k := by omega
    refine step_of_unreadable hready (State.fetch_of_unreadable_operand (State.memRead_ok.mpr ⟨hpc, hop⟩) hrow
      (State.readWords_of_unreadable (k := k - 1) (by omega) (fun j hj => ?_) ?_))
    · obtain ⟨hle, hwritten⟩ := hreadable (j + 1) (by omega) (by omega)
      obtain ⟨w, hw⟩ := Option.ne_none_iff_exists'.mp hwritten
      rw [Nat.add_right_comm, Nat.add_assoc]
      exact ⟨w, State.memRead_ok.mpr ⟨hle, hw⟩⟩
    · rw [haddr]
      exact State.memRead_error.mpr ⟨rfl, hunread⟩

/-- Settles O55: the address the `call` pushed is the top of the stack that `ret` takes (R190, R191). -/
theorem callThenRetComesBack : Obligations.CallThenRetComesBack := by
  intro s t u a hcall hrun hret
  obtain ⟨v, x, hv, rfl⟩ := exec_call_running hcall hrun
  rw [exec_ret_next (t := v) (rest := s.stack) rfl] at hret
  cases hret
  refine ⟨hv, rfl, ?_, ?_, ?_⟩
  · exact (State.traceStep_run _).trans hrun
  · exact (State.traceStep_regs _).trans (State.issue_regs s 1)
  · exact (State.traceStep_mem _).trans (State.issue_mem s 1)

/-- Settles O56: the second complement is of the register that holds the first (R165, R168). -/
theorem notIsSelfInverse : Obligations.NotIsSelfInverse := by
  intro s t u i j b x hb ht hu
  rw [exec_not_next i hb] at ht
  cases ht
  rw [exec_not_next j (State.val_reg _ i)] at hu
  cases hu
  simp [State.reg, AluOp.result]

/-- Settles O57: the stored word is the whole of the instruction, and it is in the cell where the next fetch looks (R74). -/
theorem storedInstructionIsFetchedNext : Obligations.StoredInstructionIsFetchedNext := by
  intro s t a b addr v i ha hb henc ht hready hpc
  rw [exec_wmem_next ha hb] at ht
  cases ht
  have hlength : 1 = 1 + i.operands.length := by
    rw [← (Laws.EncodedLength.of_any i).1, henc, List.length_singleton]
  have hos : i.operands = [] := List.eq_nil_of_length_eq_zero (by omega)
  refine step_of_fetch_ok hready (State.fetch_of_encode (by rw [Instr.encodable, hos, List.all_nil]) ?_ fun k w hw => ?_)
  · rw [hpc, henc, List.length_singleton]
    exact addr.isLt
  · obtain ⟨rfl, rfl⟩ : k = 0 ∧ w = v.setWidth 16 := by
      rw [henc] at hw
      cases k with
      | zero => exact ⟨rfl, (Option.some.inj hw).symm⟩
      | succ k => cases hw
    rw [hpc, Nat.add_zero]
    exact Memory.read_write_same s.mem addr _

end Sys2Proof

/-! PROOFS. The host's moves: reset, load, script, start, stop (R257, R258, R270 to R277), and the cause codes (R31). -/

namespace Sys2Proof.Machine

/-! ## Reset -/

theorem State.reset_reg (i : R3) : State.reset.reg i = 0 := by
  revert i
  decide

/-- A core that is not started takes no step (R270). -/
theorem step_of_not_started {s : State} (hrun : s.run = .running) (hlaunch : s.launch ≠ .started)
    (hreq : s.requests = []) : step s = .fault .notStarted := by
  simp only [step, hreq, coreStep, hrun]
  cases hl : s.launch with
  | atReset => rfl
  | loaded => rfl
  | started => exact absurd hl hlaunch

/-! ## The image as words (R272) -/

/-- The word that bytes `2k` and `2k + 1` of an image stand for, low byte first (R65). -/
def wordAt (image : List Byte) (k : Nat) : W16 :=
  BitVec.ofNat 16 ((image.getD (2 * k) 0).toNat + 256 * (image.getD (2 * k + 1) 0).toNat)

theorem wordAt_succ (lo hi : Byte) (bs : List Byte) (k : Nat) : wordAt (lo :: hi :: bs) (k + 1) = wordAt bs k := rfl

theorem wordsOfBytes_of_even {image : List Byte} {n : Nat} (h : image.length = 2 * n) :
    ∃ ws, wordsOfBytes image = some ws ∧ ws.length = n ∧ ∀ k, k < n → ws[k]? = some (wordAt image k) := by
  induction n generalizing image with
  | zero =>
    obtain rfl : image = [] := List.eq_nil_of_length_eq_zero h
    exact ⟨[], rfl, rfl, fun k hk => absurd hk (Nat.not_lt_zero k)⟩
  | succ n ih =>
    match image, h with
    | lo :: hi :: bs, h =>
      obtain ⟨ws, hws, hlength, hwords⟩ := ih (image := bs) (by simp only [List.length_cons] at h; omega)
      refine ⟨wordAt (lo :: hi :: bs) 0 :: ws, ?_, by rw [List.length_cons, hlength], fun k hk => ?_⟩
      · rw [wordsOfBytes, hws]
        rfl
      · cases k with
        | zero => rfl
        | succ k => rw [wordAt_succ, List.getElem?_cons_succ, hwords k (by omega)]

theorem wordsOfBytes_of_odd {image : List Byte} (h : image.length % 2 = 1) : wordsOfBytes image = none := by
  induction image using wordsOfBytes.induct with
  | case1 => cases h
  | case2 b => rfl
  | case3 lo hi bs ih =>
    rw [wordsOfBytes, ih (by simp only [List.length_cons] at h; omega), Option.map_none]

/-- The images the loader does not take (R274). -/
theorem imageWords_eq_none {image : List Byte} {ending : StreamEnd}
    (h : image.length % 2 = 1 ∨ ending = .abort ∨ 65536 < image.length) : imageWords image ending = none := by
  cases ending with
  | abort => rfl
  | endOfStream =>
    obtain hodd | habort | hlong := h
    · rw [imageWords, wordsOfBytes_of_odd hodd, ite_self]
    · cases habort
    · exact if_neg (Nat.not_le.mpr hlong)

/-- An image of at most 65536 bytes whose stream has ended is taken as its words (R274). -/
theorem imageWords_of_le {image : List Byte} (h : image.length ≤ 65536) :
    imageWords image .endOfStream = wordsOfBytes image := if_pos h

/-- A byte count of 21 bits is reported as it is (R274). -/
theorem loadErrorInfo_toNat {n : Nat} (h : n < 2 ^ 21) : (loadErrorInfo n).toNat = n := by
  rw [loadErrorInfo, if_pos h, BitVec.toNat_ofNat, Nat.mod_eq_of_lt h]

/-- The loader's writes end at the last word of the image (R273). -/
theorem Memory.read_writeWords_above (m : Memory) (ws : List W16) {addr b : Nat} (hb : addr + ws.length ≤ b) :
    (m.writeWords addr ws).read b = m.read b := by
  induction ws generalizing m addr with
  | nil => rfl
  | cons w ws ih =>
    rw [List.length_cons] at hb
    have hne : b ≠ addr := by omega
    rw [Memory.writeWords, ih _ (by omega)]
    by_cases haddr : addr < Config.memWords
    · rw [if_pos haddr, Memory.read_insert, if_neg hne]
    · rw [if_neg haddr]

/-- A load is served on a core that has just been reset and runs (R258). -/
theorem serveHost_load {s : State} (hlaunch : s.launch = .atReset) (hrun : s.run = .running) (image : List Byte)
    (ending : StreamEnd) : serveHost (.load image ending) s = .next (s.load image ending) :=
  if_pos ⟨hlaunch, hrun⟩

theorem State.load_of_words {image : List Byte} {ending : StreamEnd} {ws : List W16}
    (h : imageWords image ending = some ws) (s : State) :
    s.load image ending = { s with mem := s.mem.writeWords 0 ws, launch := .loaded } := by
  simp only [State.load, h]

theorem State.load_of_none {image : List Byte} {ending : StreamEnd} (h : imageWords image ending = none) (s : State) :
    s.load image ending = s.loadFailure image.length := by
  simp only [State.load, h]

/-! ## start, stop_req -/

/-- `start` has no effect on a core that has stopped (R277). -/
theorem serveHost_start_of_halted {s : State} (hrun : s.run = .halted) : serveHost .start s = .next s := by
  have hnot : ¬ (s.launch = .atReset ∧ s.run = .running) := by simp [hrun]
  rw [serveHost, if_neg hnot, State.startCore, hrun]

theorem serveHost_start_of_loaded {s : State} (hrun : s.run = .running) (hlaunch : s.launch = .loaded) :
    serveHost .start s = .next { s with launch := .started } := by
  have hnot : ¬ (s.launch = .atReset ∧ s.run = .running) := by simp [hlaunch]
  rw [serveHost, if_neg hnot, State.startCore, hrun]

theorem State.operatorStop_of_running {s : State} (hrun : s.run = .running) :
    s.operatorStop = State.stop .operatorStop { s with hold := none } := by
  rw [State.operatorStop, hrun]

theorem State.operatorStop_of_halted {s : State} (hrun : s.run = .halted) : s.operatorStop = s := by
  rw [State.operatorStop, hrun]

end Sys2Proof.Machine

namespace Sys2Proof

open Sys2Proof.Machine

/-- Settles O42: a reset puts the reset values, and nothing but it leads out of HALTED (R270, R244). -/
theorem resetValues : Obligations.ResetValues := by
  refine ⟨fun t ht => ?_, fun s ms hreq => ⟨_, step_of_request hreq⟩, fun s => step_of_not_started,
    fun s t hhalted ht hrunning => ?_⟩
  · obtain rfl | ⟨s, ms, hreq, hstep⟩ := ht
    · exact ⟨State.reset_reg, rfl, rfl, fun _ => rfl, rfl, rfl, rfl, rfl, rfl, rfl, rfl, rfl, rfl⟩
    · rw [step_of_request hreq] at hstep
      cases hstep
      exact ⟨State.reset_reg, rfl, rfl, fun _ => rfl, rfl, rfl, rfl, rfl, rfl, rfl, rfl, rfl, rfl⟩
  · by_contra hrst
    obtain ⟨hstill, -⟩ := (haltedIsTerminal s hhalted).2 t ht fun ms hms => hrst ⟨ms, hms⟩
    cases hstill.symm.trans hrunning

/-- Settles O43: the image is words of two bytes, and the loader writes them from cell 0 up (R272, R273). -/
theorem loaderWritesImage : Obligations.LoaderWritesImage := by
  intro s image ms n hreq hlaunch hrun hlength hn
  obtain ⟨ws, hws, hcount, hwords⟩ := wordsOfBytes_of_even hlength
  have himage : imageWords image .endOfStream = some ws := (imageWords_of_le (by omega)).trans hws
  have hstep : step s = .next { s with mem := s.mem.writeWords 0 ws, launch := .loaded, requests := ms } := by
    rw [step_of_request hreq, serveHost_load (s := { s with requests := ms }) hlaunch hrun, State.load_of_words himage]
  refine ⟨_, hstep, rfl, fun k hk => ?_, fun k hk => ?_⟩
  · rw [Memory.read_writeWords _ _ _ _ (show k < 32768 by omega), if_pos (by omega), Nat.sub_zero, hwords k hk]
    rfl
  · exact Memory.read_writeWords_above s.mem ws (by omega)

/-- Settles O44: the loader takes none of these images, and a core that has stopped has no step and no start (R274). -/
theorem loadErrorsHalt : Obligations.LoadErrorsHalt := by
  intro s image ending ms hreq hlaunch hrun herror
  have hstep : step s = .next (State.loadFailure { s with requests := ms } image.length) := by
    rw [step_of_request hreq, serveHost_load (s := { s with requests := ms }) hlaunch hrun,
      State.load_of_none (imageWords_eq_none herror)]
  refine ⟨_, hstep, rfl, fun hlt => loadErrorInfo_toNat hlt, fun hms => ?_, fun ms' hms => ?_⟩
  · exact step_of_halted rfl hms
  · rw [step_of_request hms]
    exact serveHost_start_of_halted rfl

/-- Settles O45: `start` looks at the run state and the launch position (R277). -/
theorem startLaunchesTheCore : Obligations.StartLaunchesTheCore := by
  refine ⟨fun s ms hreq hrun hlaunch => ?_, fun s ms hreq hrun => ?_⟩ <;> rw [step_of_request hreq]
  · exact serveHost_start_of_loaded hrun hlaunch
  · exact serveHost_start_of_halted hrun

/-- Settles O46: the stop looks at the run state alone (R257). -/
theorem operatorStopEndsTheRun : Obligations.OperatorStopEndsTheRun := by
  refine fun s ms hreq => ⟨fun hrun => ?_, fun hrun => ?_⟩ <;> rw [step_of_request hreq, serveHost]
  · rw [State.operatorStop_of_running (s := { s with requests := ms }) hrun]
    rfl
  · rw [State.operatorStop_of_halted (s := { s with requests := ms }) hrun]

/-- Settles O47: each move is served under its condition on the launch position (R258). -/
theorem hostProtocolIsKept : Obligations.HostProtocolIsKept := by
  refine ⟨fun s lines ms hreq hlaunch => ?_, fun s lines ms hreq hlaunch => ?_, fun s image ending ms hreq hlaunch => ?_,
    fun s ms hreq hlaunch hrun => ?_⟩ <;> rw [step_of_request hreq, serveHost]
  · exact if_neg hlaunch
  · exact if_pos hlaunch
  · exact if_neg fun h => hlaunch h.1
  · exact if_pos ⟨hlaunch, hrun⟩

/-- Settles O48: the table of R31, read cause by cause. -/
theorem causeCodes : Obligations.CauseCodes := by
  refine ⟨rfl, rfl, fun c => ?_⟩
  cases c <;> decide

end Sys2Proof
